-- ==== Sys2Proof/Word.lean ====
section
/-! DEFINITION. The word types of YE22-CU8 (spec/00_scope.md R6, R7) and the shape of a sparse memory. -/

namespace Sys2Proof

/-- A byte: every register, Data Memory entry, Stack entry, operand field and the program counter (R7).
Arithmetic on it wraps modulo 256. -/
abbrev Byte := BitVec 8

/-- The fixed-width container of one instruction, 32 bits of which 24 are significant (30_encoding.md R80). -/
abbrev Container := BitVec 32

/-- An effective Data Memory address, 9 bits (20_memory.md R50, R54). -/
abbrev DataAddr := BitVec 9

/-- A store of `w`-bit units as address and value pairs. At `w = 8` it is a list of `Host.Cell`.
Its canonical form is `Memory.wf` (Machine/Memory.lean). -/
abbrev Memory (w : Nat) := List (Nat × BitVec w)

end Sys2Proof
end

