-- ==== Sys2Proof/Config.lean ====
section
/-! DEFINITION. The implementation parameters of spec/00_scope.md R5, as plain data, and the values the spec
leaves OPEN, as a constant with no body. The default values stand in Decode.lean and Machine/Defaults.lean. -/

namespace Sys2Proof

/-- The 35 mnemonics, in the order of the opcode table (30_encoding.md R86): the domain of the parameter OPC. -/
inductive Mnemonic
  | nop
  | ldi | mov | clr | out | inp | sts | lds
  | ori | andi | xori | or | and | xor | addi | subi | add | sub | inc | dec | cpi | cp
  | call | ret | push | pop | jmp
  | breq | brne | brge | brgt | brle | brlt
  | lsl | lsr
  deriving DecidableEq, Repr

/-- The parameter OPC: the opcode byte of every mnemonic, in the order of `Mnemonic` (30_encoding.md R86). -/
abbrev OpcodeMap := Vector Byte 35

/-- The parameter REG_OOR: what a register field of 32 to 255 does (30_encoding.md R90). -/
inductive RegOor
  /-- the model stops with `regIndexOutOfRange` when the instruction reaches its Execute phase -/
  | fault
  /-- bits 4 to 0 of the field select the register -/
  | mask5
  deriving DecidableEq, Repr

/-- What a push onto a full Stack leaves in it, where STACK_FAULTS supplies a behaviour (20_memory.md R59). The four are
the model's list of what a push can do to a Stack whose depth cannot grow (log entry 8). -/
inductive FullPush
  /-- the pushed byte is lost -/
  | drop
  /-- the oldest byte is lost: a circular store -/
  | dropOldest
  /-- the byte on top is lost: a pointer that stays at its last value -/
  | replaceTop
  /-- every byte below is lost: a pointer that starts again -/
  | restart
  deriving DecidableEq, Repr

/-- A measured behaviour of a misused Stack, as STACK_FAULTS supplies it (20_memory.md R59, log entry 8). -/
structure StackMisuse where
  /-- the byte a pop of an empty Stack returns -/
  poppedByte : Byte
  /-- what a pop of an empty Stack leaves in it -/
  poppedStack : List Byte
  /-- what a push onto a full Stack does -/
  fullPush : FullPush
  deriving DecidableEq, Repr

/-- The parameter STACK_FAULTS: what a pop of an empty Stack and a push onto a full one do (20_memory.md R59). -/
inductive StackFaults
  /-- the model stops with `stackUnderflow` or `stackOverflow` -/
  | fault
  /-- the Stack behaves as supplied -/
  | supplied (b : StackMisuse)
  deriving DecidableEq, Repr

/-- The parameters of R5 and R60: those a step depends on, and the two that only `inspect` shows. They are arguments of the machine, not state of the hardware;
a state carries them in its field `cfg`, which no step writes (log entry 1). -/
structure Config where
  /-- OPC (30_encoding.md R86) -/
  opcodes : OpcodeMap
  /-- REG_OOR (30_encoding.md R90) -/
  regOor : RegOor
  /-- PM_SIZE, 1 to 256 (20_memory.md R51) -/
  pmSize : Nat
  /-- PROGRAM: the contents of Program Memory, an entry that is not listed being 0x00000000 (20_memory.md R51) -/
  program : Memory 32
  /-- DM_SIZE, at least 512 (20_memory.md R53) -/
  dmSize : Nat
  /-- DM_INIT: Data Memory after a reset, an entry that is not listed being 0x00 (20_memory.md R53) -/
  dmInit : Memory 8
  /-- STACK_DEPTH: the number of bytes the Stack can hold (20_memory.md R57) -/
  stackDepth : Nat
  /-- STACK_FAULTS (20_memory.md R59) -/
  stackFaults : StackFaults
  /-- SP_OF as a table: entry d is the number `pointer()` reports for a Stack of d bytes, and a depth beyond the table
  reports itself, the spec's default (20_memory.md R60, log entry 9) -/
  spOf : List Nat
  /-- LAST_PUSHED_EMPTY: what `last_pushed()` reports for the empty Stack, or nothing where it stays OPEN
  (20_memory.md R60, log entry 9) -/
  lastPushedEmpty : Option Byte
  deriving DecidableEq, Repr

/-- What `last_pushed()` reports for the empty Stack where the parameter LAST_PUSHED_EMPTY is left OPEN. The spec says
"any value for proofs", so it has no body (spec/93_implementation_defined.md U9, log entry 9). -/
opaque Config.lastPushedOpen : Byte

end Sys2Proof
end

