-- ==== Sys2Proof/Syntax.lean ====
section
/-! DEFINITION. The instructions: one constructor per row of spec/opcode_table.json, each with the operand fields its
format uses (spec/30_encoding.md R84, R85). A register operand is kept as the 8-bit field it arrives in, because what
a field above 31 does is settled in the Execute phase (R90). -/

namespace Sys2Proof

/-- An instruction. `d` is a register field in operand1, `s` a register field in operand2, `k` an immediate, `a` a
data address, `p` a program address (30_encoding.md R85). -/
inductive Instr
  /-- `NOP`, format N (R182) -/
  | nop
  /-- `LDI Rd,k`, format RI (R121) -/
  | ldi (d k : Byte)
  /-- `MOV Rd,Rs`, format RR (R122) -/
  | mov (d s : Byte)
  /-- `CLR Rd`, format R (R123) -/
  | clr (d : Byte)
  /-- `OUT a,Rs`, format AR (R124) -/
  | out (a s : Byte)
  /-- `IN Rd,a`, format RA (R125) -/
  | inp (d a : Byte)
  /-- `STS a,Rs`, format AR (R126) -/
  | sts (a s : Byte)
  /-- `LDS Rd,a`, format RA (R127) -/
  | lds (d a : Byte)
  /-- `ORI Rd,k`, format RI (R138) -/
  | ori (d k : Byte)
  /-- `ANDI Rd,k`, format RI (R139) -/
  | andi (d k : Byte)
  /-- `XORI Rd,k`, format RI (R140) -/
  | xori (d k : Byte)
  /-- `OR Rd,Rs`, format RR (R141) -/
  | or (d s : Byte)
  /-- `AND Rd,Rs`, format RR (R142) -/
  | and (d s : Byte)
  /-- `XOR Rd,Rs`, format RR (R143) -/
  | xor (d s : Byte)
  /-- `ADDI Rd,k`, format RI (R144) -/
  | addi (d k : Byte)
  /-- `SUBI Rd,k`, format RI (R145) -/
  | subi (d k : Byte)
  /-- `ADD Rd,Rs`, format RR (R146) -/
  | add (d s : Byte)
  /-- `SUB Rd,Rs`, format RR (R147) -/
  | sub (d s : Byte)
  /-- `INC Rd`, format R (R148) -/
  | inc (d : Byte)
  /-- `DEC Rd`, format R (R149) -/
  | dec (d : Byte)
  /-- `CPI Rd,k`, format RI (R150) -/
  | cpi (d k : Byte)
  /-- `CP Rd,Rs`, format RR (R151) -/
  | cp (d s : Byte)
  /-- `CALL p`, format P (R161) -/
  | call (p : Byte)
  /-- `RET`, format N (R162) -/
  | ret
  /-- `PUSH Rd`, format R (R163) -/
  | push (d : Byte)
  /-- `POP Rd`, format R (R164) -/
  | pop (d : Byte)
  /-- `JMP p`, format P (R165) -/
  | jmp (p : Byte)
  /-- `BREQ p`, format P (R171) -/
  | breq (p : Byte)
  /-- `BRNE p`, format P (R172) -/
  | brne (p : Byte)
  /-- `BRGE p`, format P (R173) -/
  | brge (p : Byte)
  /-- `BRGT p`, format P (R174) -/
  | brgt (p : Byte)
  /-- `BRLE p`, format P (R175) -/
  | brle (p : Byte)
  /-- `BRLT p`, format P (R176) -/
  | brlt (p : Byte)
  /-- `LSL Rd`, format R (R180) -/
  | lsl (d : Byte)
  /-- `LSR Rd`, format R (R181) -/
  | lsr (d : Byte)
  deriving DecidableEq, Repr

end Sys2Proof
end

