-- ==== Sys2Proof/WellFormed.lean ====
section
/-! DEFINITION. Which instructions are well-formed: every field used as a register index is 0 to 31
(spec/10_state.md R21, spec/30_encoding.md R83, R90). Immediates, addresses and ignored fields are unrestricted. -/

namespace Sys2Proof

/-- The fields an instruction uses as a register index, operand1 before operand2 (10_state.md R22). -/
def Instr.regFields : Instr → List Byte
  | .nop => []
  | .ldi d _ => [d]
  | .mov d s => [d, s]
  | .clr d => [d]
  | .out _ s => [s]
  | .inp d _ => [d]
  | .sts _ s => [s]
  | .lds d _ => [d]
  | .ori d _ => [d]
  | .andi d _ => [d]
  | .xori d _ => [d]
  | .or d s => [d, s]
  | .and d s => [d, s]
  | .xor d s => [d, s]
  | .addi d _ => [d]
  | .subi d _ => [d]
  | .add d s => [d, s]
  | .sub d s => [d, s]
  | .inc d => [d]
  | .dec d => [d]
  | .cpi d _ => [d]
  | .cp d s => [d, s]
  | .call _ => []
  | .ret => []
  | .push d => [d]
  | .pop d => [d]
  | .jmp _ => []
  | .breq _ => []
  | .brne _ => []
  | .brge _ => []
  | .brgt _ => []
  | .brle _ => []
  | .brlt _ => []
  | .lsl d => [d]
  | .lsr d => [d]

/-- A register field holds the number of a register, 0 to 31 (R21). -/
def regFieldOk (f : Byte) : Bool := decide (f.toNat < 32)

/-- An instruction is well-formed when each of its register fields names a register (R90). -/
def Instr.wellFormed (i : Instr) : Bool := i.regFields.all regFieldOk

end Sys2Proof
end

