-- ==== Sys2Proof/Decode.lean ====
section
/-! DEFINITION. The decoder, total on every container and rejecting by name (spec/30_encoding.md R80 to R91), the
default opcode map (R86), and after them the encoder (R94) and the spelling of an instruction (R92). -/

namespace Sys2Proof

/-! ## The opcode map -/

/-- The 35 mnemonics in the order of the table of R86. -/
def Mnemonic.all : List Mnemonic :=
  [.nop, .ldi, .mov, .clr, .out, .inp, .sts, .lds] ++
  [.ori, .andi, .xori, .or, .and, .xor, .addi, .subi, .add, .sub, .inc, .dec, .cpi, .cp] ++
  [.call, .ret, .push, .pop, .jmp] ++
  [.breq, .brne, .brge, .brgt, .brle, .brlt] ++
  [.lsl, .lsr]

/-- The place of a mnemonic in the table of R86. -/
def Mnemonic.index : Mnemonic → Fin 35
  | .nop => 0 | .ldi => 1 | .mov => 2 | .clr => 3 | .out => 4 | .inp => 5 | .sts => 6 | .lds => 7
  | .ori => 8 | .andi => 9 | .xori => 10 | .or => 11 | .and => 12 | .xor => 13 | .addi => 14 | .subi => 15
  | .add => 16 | .sub => 17 | .inc => 18 | .dec => 19 | .cpi => 20 | .cp => 21
  | .call => 22 | .ret => 23 | .push => 24 | .pop => 25 | .jmp => 26
  | .breq => 27 | .brne => 28 | .brge => 29 | .brgt => 30 | .brle => 31 | .brlt => 32
  | .lsl => 33 | .lsr => 34

/-- OPC(m), the opcode byte of a mnemonic (R86). -/
def OpcodeMap.code (opc : OpcodeMap) (m : Mnemonic) : Byte := opc[m.index.val]

/-- The mnemonic an opcode byte selects, if the map assigns that byte (R86, R88). -/
def OpcodeMap.lookup (opc : OpcodeMap) (b : Byte) : Option Mnemonic :=
  Mnemonic.all.find? fun m => opc.code m == b

/-- No byte stands twice in the list. -/
def distinctBytes : List Byte → Bool
  | [] => true
  | b :: rest => !rest.contains b && distinctBytes rest

/-- The two conditions R86 puts on OPC: it is injective, and it maps `NOP` to 0x00. -/
def OpcodeMap.valid (opc : OpcodeMap) : Bool :=
  distinctBytes opc.toList && opc.code .nop == 0x00#8

/-- The default map of R86: 0x00 to 0x22 in the order of the table. Only OPC(NOP) is the source's; the other numbers
are the spec's own (decision D3, log entry 3). -/
def OpcodeMap.default : OpcodeMap :=
  #v[0x00#8, 0x01#8, 0x02#8, 0x03#8, 0x04#8, 0x05#8, 0x06#8, 0x07#8,
     0x08#8, 0x09#8, 0x0A#8, 0x0B#8, 0x0C#8, 0x0D#8, 0x0E#8, 0x0F#8,
     0x10#8, 0x11#8, 0x12#8, 0x13#8, 0x14#8, 0x15#8, 0x16#8, 0x17#8,
     0x18#8, 0x19#8, 0x1A#8, 0x1B#8, 0x1C#8, 0x1D#8, 0x1E#8, 0x1F#8,
     0x20#8, 0x21#8, 0x22#8]

/-! ## The fields of a container -/

/-- The opcode field, bits 23 to 16 (R81). -/
def opcodeField (c : Container) : Byte := c.extractLsb' 16 8

/-- operand1, bits 15 to 8 (R81). -/
def operand1Field (c : Container) : Byte := c.extractLsb' 8 8

/-- operand2, bits 7 to 0 (R81). -/
def operand2Field (c : Container) : Byte := c.extractLsb' 0 8

/-! ## The decoder -/

/-- Why a container is no instruction. -/
inductive DecodeError
  /-- its opcode byte is assigned to no mnemonic (R88) -/
  | unrecognizedOpcode (opc : Byte)
  deriving DecidableEq, Repr

/-- What decoding answers. -/
inductive Decoded
  | instr (i : Instr)
  | rejected (e : DecodeError)
  deriving DecidableEq, Repr

/-- The instruction of a mnemonic with its two operand fields, the fields its format ignores left out
(R84, R85, R89). -/
def Instr.ofFields : Mnemonic → Byte → Byte → Instr
  | .nop, _, _ => .nop
  | .ldi, op1, op2 => .ldi op1 op2
  | .mov, op1, op2 => .mov op1 op2
  | .clr, op1, _ => .clr op1
  | .out, op1, op2 => .out op1 op2
  | .inp, op1, op2 => .inp op1 op2
  | .sts, op1, op2 => .sts op1 op2
  | .lds, op1, op2 => .lds op1 op2
  | .ori, op1, op2 => .ori op1 op2
  | .andi, op1, op2 => .andi op1 op2
  | .xori, op1, op2 => .xori op1 op2
  | .or, op1, op2 => .or op1 op2
  | .and, op1, op2 => .and op1 op2
  | .xor, op1, op2 => .xor op1 op2
  | .addi, op1, op2 => .addi op1 op2
  | .subi, op1, op2 => .subi op1 op2
  | .add, op1, op2 => .add op1 op2
  | .sub, op1, op2 => .sub op1 op2
  | .inc, op1, _ => .inc op1
  | .dec, op1, _ => .dec op1
  | .cpi, op1, op2 => .cpi op1 op2
  | .cp, op1, op2 => .cp op1 op2
  | .call, op1, _ => .call op1
  | .ret, _, _ => .ret
  | .push, op1, _ => .push op1
  | .pop, op1, _ => .pop op1
  | .jmp, op1, _ => .jmp op1
  | .breq, op1, _ => .breq op1
  | .brne, op1, _ => .brne op1
  | .brge, op1, _ => .brge op1
  | .brgt, op1, _ => .brgt op1
  | .brle, op1, _ => .brle op1
  | .brlt, op1, _ => .brlt op1
  | .lsl, op1, _ => .lsl op1
  | .lsr, op1, _ => .lsr op1

/-- Selection by the opcode byte alone (R86): the instruction that an opcode and two operand fields stand for. -/
def decodeFields (opcodes : OpcodeMap) (opc op1 op2 : Byte) : Decoded :=
  match opcodes.lookup opc with
  | some m => .instr (Instr.ofFields m op1 op2)
  | none => .rejected (.unrecognizedOpcode opc)

/-- The decoder: total on all containers, the top byte not used (R81, R82, R88). A register field above 31 is kept
as it is: the check belongs to the Execute phase (R90). -/
def decode (opcodes : OpcodeMap) (c : Container) : Decoded :=
  decodeFields opcodes (opcodeField c) (operand1Field c) (operand2Field c)

/-- The decoder under the default map on an instruction of `nbits` bits with value `w`, numbered as the opcode table
numbers them: one container is the whole instruction, and the bits above `nbits` are 0. -/
def decodeTableWord (nbits w : Nat) : Option Instr :=
  match decode OpcodeMap.default (BitVec.ofNat 32 (w % 2 ^ nbits)) with
  | .instr i => some i
  | .rejected _ => none

/-! ## The encoder -/

/-- The mnemonic of an instruction. -/
def Instr.mnemonic : Instr → Mnemonic
  | .nop => .nop
  | .ldi _ _ => .ldi
  | .mov _ _ => .mov
  | .clr _ => .clr
  | .out _ _ => .out
  | .inp _ _ => .inp
  | .sts _ _ => .sts
  | .lds _ _ => .lds
  | .ori _ _ => .ori
  | .andi _ _ => .andi
  | .xori _ _ => .xori
  | .or _ _ => .or
  | .and _ _ => .and
  | .xor _ _ => .xor
  | .addi _ _ => .addi
  | .subi _ _ => .subi
  | .add _ _ => .add
  | .sub _ _ => .sub
  | .inc _ => .inc
  | .dec _ => .dec
  | .cpi _ _ => .cpi
  | .cp _ _ => .cp
  | .call _ => .call
  | .ret => .ret
  | .push _ => .push
  | .pop _ => .pop
  | .jmp _ => .jmp
  | .breq _ => .breq
  | .brne _ => .brne
  | .brge _ => .brge
  | .brgt _ => .brgt
  | .brle _ => .brle
  | .brlt _ => .brlt
  | .lsl _ => .lsl
  | .lsr _ => .lsr

/-- The two operand fields of an instruction, a missing operand being 0 (R84, R94). -/
def Instr.operands : Instr → Byte × Byte
  | .nop => (0, 0)
  | .ldi d k => (d, k)
  | .mov d s => (d, s)
  | .clr d => (d, 0)
  | .out a s => (a, s)
  | .inp d a => (d, a)
  | .sts a s => (a, s)
  | .lds d a => (d, a)
  | .ori d k => (d, k)
  | .andi d k => (d, k)
  | .xori d k => (d, k)
  | .or d s => (d, s)
  | .and d s => (d, s)
  | .xor d s => (d, s)
  | .addi d k => (d, k)
  | .subi d k => (d, k)
  | .add d s => (d, s)
  | .sub d s => (d, s)
  | .inc d => (d, 0)
  | .dec d => (d, 0)
  | .cpi d k => (d, k)
  | .cp d s => (d, s)
  | .call p => (p, 0)
  | .ret => (0, 0)
  | .push d => (d, 0)
  | .pop d => (d, 0)
  | .jmp p => (p, 0)
  | .breq p => (p, 0)
  | .brne p => (p, 0)
  | .brge p => (p, 0)
  | .brgt p => (p, 0)
  | .brle p => (p, 0)
  | .brlt p => (p, 0)
  | .lsl d => (d, 0)
  | .lsr d => (d, 0)

/-- `encode(mnemonic, op1, op2)`: the container, its bits 31 to 24 zero (R94). -/
def encode (opcodes : OpcodeMap) (i : Instr) : Container :=
  0x00#8 ++ opcodes.code i.mnemonic ++ i.operands.1 ++ i.operands.2

/-- What an assembler writes: the container of a well-formed instruction, and nothing for a register name outside R0
to R31 (R90). -/
def assemble (opcodes : OpcodeMap) (i : Instr) : Option Container :=
  if i.wellFormed then some (encode opcodes i) else none

/-! ## The operand formats and the spelling -/

/-- The seven operand formats of R85. -/
inductive Format | RI | RR | R | AR | RA | P | N
  deriving DecidableEq, Repr

/-- The format of a mnemonic (R85). -/
def Mnemonic.format : Mnemonic → Format
  | .ldi | .ori | .andi | .xori | .addi | .subi | .cpi => .RI
  | .mov | .or | .and | .xor | .add | .sub | .cp => .RR
  | .clr | .inc | .dec | .push | .pop | .lsl | .lsr => .R
  | .out | .sts => .AR
  | .inp | .lds => .RA
  | .call | .jmp | .breq | .brne | .brge | .brgt | .brle | .brlt => .P
  | .ret | .nop => .N

/-- The bits of a container a format uses: the `x` bits of R85 are 0 here, so are the ignored top eight. -/
def Format.usedBits : Format → Container
  | .RI | .RR | .AR | .RA => 0x00FFFFFF#32
  | .R | .P => 0x00FFFF00#32
  | .N => 0x00FF0000#32

/-- The assembler's name of a mnemonic (R92). -/
def Mnemonic.spelling : Mnemonic → String
  | .nop => "NOP" | .ldi => "LDI" | .mov => "MOV" | .clr => "CLR" | .out => "OUT" | .inp => "IN" | .sts => "STS"
  | .lds => "LDS" | .ori => "ORI" | .andi => "ANDI" | .xori => "XORI" | .or => "OR" | .and => "AND" | .xor => "XOR"
  | .addi => "ADDI" | .subi => "SUBI" | .add => "ADD" | .sub => "SUB" | .inc => "INC" | .dec => "DEC" | .cpi => "CPI"
  | .cp => "CP" | .call => "CALL" | .ret => "RET" | .push => "PUSH" | .pop => "POP" | .jmp => "JMP" | .breq => "BREQ"
  | .brne => "BRNE" | .brge => "BRGE" | .brgt => "BRGT" | .brle => "BRLE" | .brlt => "BRLT" | .lsl => "LSL"
  | .lsr => "LSR"

/-- An instruction as R92 spells it, with decimal numbers: `LDI R16,1`. -/
def Instr.spelling (i : Instr) : String :=
  let name := i.mnemonic.spelling
  let op1 := Nat.repr i.operands.1.toNat
  let op2 := Nat.repr i.operands.2.toNat
  match i.mnemonic.format with
  | .RI | .RA => name ++ " R" ++ op1 ++ "," ++ op2
  | .RR => name ++ " R" ++ op1 ++ ",R" ++ op2
  | .R => name ++ " R" ++ op1
  | .AR => name ++ " " ++ op1 ++ ",R" ++ op2
  | .P => name ++ " " ++ op1
  | .N => name

end Sys2Proof
end

