-- ==== Sys2Proof/Machine/Memory.lean ====
section
/-! DEFINITION. The sparse stores: what an unlisted address reads as, reading, writing, and the canonical form.
Data Memory is a `Memory 8` (spec/20_memory.md R53), Program Memory a `Memory 32` (R51). -/

namespace Sys2Proof

/-- What an address that is not listed reads as: zero. For Data Memory it is the byte 0x00 of the default DM_INIT
(R53), for Program Memory the all-zero container of an entry that PROGRAM does not give (R51). -/
def Memory.unlisted (w : Nat) : BitVec w := 0#w

/-- Read one unit. -/
def Memory.read {w : Nat} : Memory w → Nat → BitVec w
  | [], _ => Memory.unlisted w
  | (b, v) :: rest, a => if a = b then v else Memory.read rest a

/-- Write one unit, keeping the addresses rising and listing no unit that equals what an unlisted address reads as. -/
def Memory.write {w : Nat} : Memory w → Nat → BitVec w → Memory w
  | [], a, v => if v = Memory.unlisted w then [] else [(a, v)]
  | (b, x) :: rest, a, v =>
    if a < b then (if v = Memory.unlisted w then (b, x) :: rest else (a, v) :: (b, x) :: rest)
    else if a = b then (if v = Memory.unlisted w then rest else (a, v) :: rest)
    else (b, x) :: Memory.write rest a v

/-- Every address listed is at least `lo`, the addresses rise strictly, and no listed unit equals what an unlisted
address reads as. -/
def Memory.wfFrom {w : Nat} : Nat → Memory w → Bool
  | _, [] => true
  | lo, (b, v) :: rest => decide (lo ≤ b) && !decide (v = Memory.unlisted w) && Memory.wfFrom (b + 1) rest

/-- The canonical form: equal contents are equal data. -/
def Memory.wf {w : Nat} (m : Memory w) : Bool := Memory.wfFrom 0 m

/-- Every listed address lies below `n`. -/
def Memory.within {w : Nat} (m : Memory w) (n : Nat) : Bool := m.all fun cell => decide (cell.1 < n)

/-- The store that holds the listed units at consecutive addresses from `a` up. -/
def Memory.ofListFrom {w : Nat} : Nat → List (BitVec w) → Memory w
  | _, [] => []
  | a, v :: rest =>
    if v = Memory.unlisted w then Memory.ofListFrom (a + 1) rest else (a, v) :: Memory.ofListFrom (a + 1) rest

/-- The store that holds the listed units from address 0 up: PROGRAM as a list of containers (R51). -/
def Memory.ofList {w : Nat} (l : List (BitVec w)) : Memory w := Memory.ofListFrom 0 l

end Sys2Proof
end

