-- ==== Sys2Proof/Machine/Defaults.lean ====
section
/-! DEFINITION. The default configuration of spec/00_scope.md R5, the bounds R5 puts on a configuration, and the
loading of a program into the parameter PROGRAM. -/

namespace Sys2Proof

/-- The defaults of R5 (decisions D3, D5, D9, D10, D11, D12), with LAST_PUSHED_EMPTY left OPEN (log entry 9). The spec gives PROGRAM no default: here nothing is loaded, so
every entry of Program Memory is 0x00000000 (log entry 11). -/
def Config.default : Config where
  opcodes := OpcodeMap.default
  regOor := .fault
  pmSize := 256
  program := []
  dmSize := 512
  dmInit := []
  stackDepth := 256
  stackFaults := .fault
  spOf := []
  lastPushedEmpty := none

/-- What a supplied pop of an empty Stack leaves fits into the Stack (20_memory.md R57). -/
def StackFaults.fits (f : StackFaults) (depth : Nat) : Bool :=
  match f with
  | .fault => true
  | .supplied b => decide (b.poppedStack.length ≤ depth)

/-- The bounds of R5: OPC is injective with OPC(NOP) = 0x00 (R86), 1 <= PM_SIZE <= 256 and PROGRAM lies within it (R51),
DM_SIZE >= 512 and DM_INIT lies within it (R53, R56); the two stores are in canonical form; a supplied STACK_FAULTS keeps
the Stack within STACK_DEPTH (R57). -/
def Config.valid (c : Config) : Bool :=
  c.opcodes.valid &&
  (decide (1 ≤ c.pmSize) && decide (c.pmSize ≤ 256) && c.program.wf && c.program.within c.pmSize) &&
  (decide (512 ≤ c.dmSize) && c.dmInit.wf && c.dmInit.within c.dmSize) &&
  c.stackFaults.fits c.stackDepth

/-- The configuration with another program, first container at address 0 (70_reset_and_hazards.md R233). -/
def Config.withProgram (c : Config) (containers : List Container) : Config :=
  { c with program := Memory.ofList containers }

end Sys2Proof
end

