-- ==== Sys2Proof/Machine/State.lean ====
section
/-! DEFINITION. The state of the machine (spec/10_state.md R20), the reasons a step can stop, and the state after
reset (R35). -/

namespace Sys2Proof.Machine

/-- The CPU state register `state`: it names the phase the next `step_state` will perform (10_state.md R30). It is a
2-bit register, so a fourth code exists; no rule writes it (R37 (a)) and a step that finds it resets
(40_control_fsm.md R104). -/
inductive Phase
  | fetch
  | decode
  | execute
  | invalid
  deriving DecidableEq, Repr

/-- The status register: six independent flags (10_state.md R25). -/
structure Status where
  /-- Interrupt: cleared by reset, written and read by nothing else (R27) -/
  i : Bool
  /-- Sign -/
  s : Bool
  /-- Negative -/
  n : Bool
  /-- Zero -/
  z : Bool
  /-- Overflow -/
  v : Bool
  /-- Carry -/
  c : Bool
  deriving DecidableEq, Repr

/-- The complete state of the machine (10_state.md R20), with the parameters it runs under. -/
structure State where
  /-- the parameters of 00_scope.md R5, written by no step (log entry 1) -/
  cfg : Config
  /-- the general registers x[0] .. x[31] (R21) -/
  x : Vector Byte 32
  /-- the program counter (R23) -/
  pc : Byte
  /-- the status register SR (R25) -/
  sr : Status
  /-- the memory address register: the address of the last fetch (R28) -/
  mar : Byte
  /-- the instruction register: the container last fetched, verbatim (R29) -/
  ir : Container
  /-- the CPU state register `state` (R30) -/
  phase : Phase
  /-- the decoded opcode (R31) -/
  opc : Byte
  /-- the decoded operand 1 (R31) -/
  op1 : Byte
  /-- the decoded operand 2 (R31) -/
  op2 : Byte
  /-- Data Memory DM (20_memory.md R53) -/
  dm : Memory 8
  /-- the Stack STK, its last element on top (20_memory.md R57) -/
  stk : List Byte
  /-- Program Memory PM (20_memory.md R51) -/
  pm : Memory 32
  deriving DecidableEq, Repr

/-- The model-level stops of 60_exceptions.md R229: situations in which the source states an invariant or a contract
and gives no behaviour outside it. They are not hardware events. All three are safe: the model stops where the
hardware may go on. -/
inductive Fault
  /-- raised by every instruction that uses a field of 32 to 255 as a register index, under REG_OOR = fault
  (30_encoding.md R90). Safe. -/
  | regIndexOutOfRange
  /-- raised by CALL and PUSH when the Stack already holds STACK_DEPTH bytes, under STACK_FAULTS = fault (20_memory.md
  R59). Safe. -/
  | stackOverflow
  /-- raised by RET and POP when the Stack is empty, under STACK_FAULTS = fault (20_memory.md R59). Safe. -/
  | stackUnderflow
  deriving DecidableEq, Repr

/-- What the model gives no meaning to. -/
inductive Refusal
  /-- raised by an arm of `exec` whose instruction has no meaning yet; no arm does. Safe. -/
  | notModelled (mnemonic : String)
  /-- raised by every step under a configuration outside the bounds of 00_scope.md R5, among them DM_SIZE < 512, which
  20_memory.md R56 says a model must refuse. Safe. -/
  | invalidConfiguration
  deriving DecidableEq, Repr

/-- All six flags 0 (10_state.md R25, R35). -/
def Status.cleared : Status := ⟨false, false, false, false, false, false⟩

/-- The state after a full reset under the given parameters (10_state.md R35). -/
def State.resetOf (cfg : Config) : State where
  cfg := cfg
  x := Vector.replicate 32 0x00#8
  pc := 0x00#8
  sr := Status.cleared
  mar := 0x00#8
  ir := 0x00000000#32
  phase := .fetch
  opc := 0x00#8
  op1 := 0x00#8
  op2 := 0x00#8
  dm := cfg.dmInit
  stk := []
  pm := cfg.program

/-- The machine right after reset under the default parameters, with no program loaded (log entry 2). -/
def State.reset : State := State.resetOf Config.default

end Sys2Proof.Machine
end

