-- ==== Sys2Proof/Machine/Ops.lean ====
section
/-! DEFINITION. The named operations over registers, the three stores and the machine as a whole
(spec/00_scope.md R8), and the full reset, which is what this hardware does instead of taking an exception. -/

namespace Sys2Proof.Machine

/-- What a meaning or a step answers. -/
abbrev Result := Host.Outcome State Fault Refusal

/-- Go on with `k` from the next state; a fault or a refusal stands, with no state (40_control_fsm.md R103). -/
def andThen (o : Result) (k : State → Result) : Result :=
  match o with
  | .next s => k s
  | .fault f => .fault f
  | .refused r => .refused r

/-- `raise ModelFault(kind)` (60_exceptions.md R229). -/
def raise (f : Fault) : Result := .fault f

/-! ## Registers -/

/-- `x[i]` (10_state.md R21). -/
def State.getReg (s : State) (i : Fin 32) : Byte := s.x[i.val]

/-- `x[i] <- v` (10_state.md R21). Every register is ordinary: none is hard-wired. -/
def State.setReg (s : State) (i : Fin 32) (v : Byte) : State := { s with x := s.x.set i.val v i.isLt }

/-- `pc <- t` (10_state.md R23, R24). -/
def State.setPc (s : State) (t : Byte) : State := { s with pc := t }

/-- `SR <- flags` (42_alu.md R137). -/
def State.setSr (s : State) (f : Status) : State := { s with sr := f }

/-! ## Program Memory -/

/-- `PMRead(a)`: the container at `a`, and 0x00000000 at an address Program Memory does not implement
(20_memory.md R51, R52). -/
def pmRead (s : State) (a : Byte) : Container :=
  if a.toNat < s.cfg.pmSize then s.pm.read a.toNat else 0x00000000#32

/-! ## Data Memory -/

/-- `MemRead(addr, 1)` (20_memory.md R53). -/
def memRead (s : State) (a : DataAddr) : Byte := s.dm.read a.toNat

/-- `MemWrite(addr, 1, v)` (20_memory.md R53). -/
def memWrite (s : State) (a : DataAddr) (v : Byte) : State := { s with dm := s.dm.write a.toNat v }

/-! ## Stack -/

/-- What a push onto a full Stack leaves in it under a supplied STACK_FAULTS. None makes the Stack deeper (R57), so one
that can hold nothing stays empty. -/
def fullPush (f : FullPush) (stk : List Byte) (v : Byte) : List Byte :=
  match f with
  | .drop => stk
  | .dropOldest => (stk ++ [v]).tail
  | .replaceTop => if stk = [] then [] else stk.dropLast ++ [v]
  | .restart => if stk = [] then [] else [v]

/-- What a push of `v` leaves in the Stack: `STK ++ [v]`, and on a full Stack what STACK_FAULTS says, nothing for a
model fault (20_memory.md R58, R59). -/
def pushContents (cfg : Config) (stk : List Byte) (v : Byte) : Option (List Byte) :=
  if stk.length < cfg.stackDepth then some (stk ++ [v])
  else match cfg.stackFaults with
    | .fault => none
    | .supplied b => some (fullPush b.fullPush stk v)

/-- The byte a pop returns and what it leaves in the Stack: the last element and those below it, and on an empty Stack
what STACK_FAULTS says, nothing for a model fault (20_memory.md R58, R59). -/
def popContents (cfg : Config) (stk : List Byte) : Option (Byte × List Byte) :=
  match stk.getLast? with
  | some v => some (v, stk.dropLast)
  | none =>
    match cfg.stackFaults with
    | .fault => none
    | .supplied b => some (b.poppedByte, b.poppedStack)

/-- `Push(v)` (20_memory.md R58, R59). -/
def push (s : State) (v : Byte) : Result :=
  match pushContents s.cfg s.stk v with
  | some stk => .next { s with stk := stk }
  | none => raise .stackOverflow

/-- `Pop()`: hands the byte on, with the state from which it is removed (20_memory.md R58, R59). -/
def pop (s : State) (k : Byte → State → Result) : Result :=
  match popContents s.cfg s.stk with
  | some (v, stk) => k v { s with stk := stk }
  | none => raise .stackUnderflow

/-- SP_OF(d) (20_memory.md R60). -/
def spOf (cfg : Config) (d : Nat) : Nat := cfg.spOf[d]?.getD d

/-- `pointer()`: a function of the depth alone (20_memory.md R60). -/
def pointer (s : State) : Nat := spOf s.cfg s.stk.length

/-- `last_pushed()`: the top element, and LAST_PUSHED_EMPTY for the empty Stack (20_memory.md R60). -/
def lastPushed (s : State) : Byte :=
  s.stk.getLast?.getD (s.cfg.lastPushedEmpty.getD Config.lastPushedOpen)

/-! ## The reaction to an anomaly -/

/-- `FullReset()`: every element of the Control Unit and of the three stores to its reset value; only the parameters,
PROGRAM among them, survive (40_control_fsm.md R107, 60_exceptions.md R219). It saves nothing and there is no return
from it (R220). -/
def fullReset (s : State) : State := State.resetOf s.cfg

end Sys2Proof.Machine
end

