-- ==== Sys2Proof/Machine/Operands.lean ====
section
/-! DEFINITION. The operand kinds of spec/30_encoding.md R83: register indexes (R90), data addresses in the two
banks (spec/20_memory.md R54). An immediate and a program address are the byte of the field itself. -/

namespace Sys2Proof.Machine

/-- `reg(f)`: the register a field selects. A field of 0 to 31 selects itself; a larger one selects nothing under
REG_OOR = fault and the register of its bits 4 to 0 under REG_OOR = mask5 (R90). -/
def regIndex (cfg : Config) (f : Byte) : Option (Fin 32) :=
  if h : f.toNat < 32 then some ⟨f.toNat, h⟩
  else match cfg.regOor with
    | .fault => none
    | .mask5 => some (f.extractLsb' 0 5).toFin

/-- Use the field `f` as a register index, or stop with `regIndexOutOfRange` (R90). -/
def withReg (s : State) (f : Byte) (k : Fin 32 → Result) : Result :=
  match regIndex s.cfg f with
  | some r => k r
  | none => raise .regIndexOutOfRange

/-- The effective address of `OUT` and `IN`: the field zero-extended, 0x000 to 0x0FF (20_memory.md R54). -/
def bank0 (a : Byte) : DataAddr := a.setWidth 9

/-- The effective address of `STS` and `LDS`: the field plus 256, 0x100 to 0x1FF, a 9-bit sum without wrap
(20_memory.md R54). -/
def bank1 (a : Byte) : DataAddr := a.setWidth 9 + 256#9

end Sys2Proof.Machine
end

