-- ==== Sys2Proof/Machine/Flags.lean ====
section
/-! DEFINITION. The ALU, a pure function of the operation and two bytes, and the commit of its flags
(spec/42_alu.md R130 to R137). -/

namespace Sys2Proof.Machine

/-- The five operations of the ALU (R130). -/
inductive AluOp | or | and | xor | add | sub
  deriving DecidableEq, Repr

/-- What the ALU returns: a byte and five flags. The Interrupt flag is not among them (R130). -/
structure AluOut where
  result : Byte
  s : Bool
  n : Bool
  z : Bool
  v : Bool
  c : Bool
  deriving DecidableEq, Repr

/-- The result byte (R132). -/
def aluResult : AluOp → Byte → Byte → Byte
  | .or, a, b => a ||| b
  | .and, a, b => a &&& b
  | .xor, a, b => a ^^^ b
  | .add, a, b => a + b
  | .sub, a, b => a - b

/-- Carry: the carry out of bit 7 of an addition, the borrow of a subtraction, 0 for a logic operation (R135). -/
def aluCarry : AluOp → Byte → Byte → Bool
  | .add, a, b => decide (255 < a.toNat + b.toNat)
  | .sub, a, b => decide (a.toNat < b.toNat)
  | .or, _, _ => false
  | .and, _, _ => false
  | .xor, _, _ => false

/-- Overflow: two's-complement overflow of an addition or a subtraction, 0 for a logic operation (R136). -/
def aluOverflow : AluOp → Byte → Byte → Bool
  | .add, a, b => a.msb == b.msb && (a + b).msb != a.msb
  | .sub, a, b => a.msb != b.msb && (a - b).msb != a.msb
  | .or, _, _ => false
  | .and, _, _ => false
  | .xor, _, _ => false

/-- `ALU(op, a, b)`: S and N are bit 7 of the result (R134), Z says that the result is 0 (R133). -/
def alu (op : AluOp) (a b : Byte) : AluOut where
  result := aluResult op a b
  s := (aluResult op a b).msb
  n := (aluResult op a b).msb
  z := aluResult op a b == 0x00#8
  v := aluOverflow op a b
  c := aluCarry op a b

/-- The flags after the commit: S N Z V C are the ALU's, I is not written (R137, 10_state.md R27). -/
def Status.commit (sr : Status) (out : AluOut) : Status :=
  { i := sr.i, s := out.s, n := out.n, z := out.z, v := out.v, c := out.c }

/-- `SR <- flags` (R137). -/
def commitFlags (s : State) (out : AluOut) : State := s.setSr (s.sr.commit out)

/-- `(r, flags) = ALU(op, x[d], b); x[d] <- r; SR <- flags`. -/
def aluWrite (s : State) (op : AluOp) (d : Fin 32) (b : Byte) : Result :=
  .next (commitFlags (s.setReg d (alu op (s.getReg d) b).result) (alu op (s.getReg d) b))

/-- `(r, flags) = ALU(SUB, x[d], b); SR <- flags`: the result is discarded (R150, R151). -/
def aluCompare (s : State) (d : Fin 32) (b : Byte) : Result :=
  .next (commitFlags s (alu .sub (s.getReg d) b))

end Sys2Proof.Machine
end

