-- ==== Sys2Proof/Machine/Branches.lean ====
section
/-! DEFINITION. The conditional branches BREQ BRNE BRGE BRGT BRLE BRLT (spec/44_branches.md R170 to R177): conditions
over S and Z only, V deliberately not consulted (R177). No flag, register, memory or stack access. -/

namespace Sys2Proof.Machine

/-- `if cond then pc <- p`; otherwise pc keeps the value the Fetch phase gave it (R170). -/
def branchIf (cond : Bool) (p : Byte) (st : State) : Result :=
  .next (if cond then st.setPc p else st)

/-- `BREQ p`: taken iff Z (R171). -/
def execBreq (p : Byte) (st : State) : Result :=
  branchIf st.sr.z p st

/-- `BRNE p`: taken iff not Z (R172). -/
def execBrne (p : Byte) (st : State) : Result :=
  branchIf (!st.sr.z) p st

/-- `BRGE p`: taken iff not S (R173). -/
def execBrge (p : Byte) (st : State) : Result :=
  branchIf (!st.sr.s) p st

/-- `BRGT p`: taken iff not S and not Z (R174). -/
def execBrgt (p : Byte) (st : State) : Result :=
  branchIf (!st.sr.s && !st.sr.z) p st

/-- `BRLE p`: taken iff S or Z (R175). -/
def execBrle (p : Byte) (st : State) : Result :=
  branchIf (st.sr.s || st.sr.z) p st

/-- `BRLT p`: taken iff S (R176). -/
def execBrlt (p : Byte) (st : State) : Result :=
  branchIf st.sr.s p st

end Sys2Proof.Machine
end

