-- ==== Sys2Proof/Machine/ControlFlow.lean ====
section
/-! DEFINITION. The control-flow and stack instructions CALL RET PUSH POP JMP (spec/43_control_flow_stack.md R160 to
R166). In the Execute phase pc already holds the address of the instruction plus 1 (R160). None writes a flag. -/

namespace Sys2Proof.Machine

/-- `CALL p`: `Push(pc); pc <- p` (R161). -/
def execCall (p : Byte) (st : State) : Result :=
  andThen (push st st.pc) fun t => .next (t.setPc p)

/-- `RET`: `pc <- Pop()` (R162). -/
def execRet (st : State) : Result :=
  pop st fun v t => .next (t.setPc v)

/-- `PUSH Rd`: `Push(x[d])` (R163). -/
def execPush (d : Byte) (st : State) : Result :=
  withReg st d fun rd => push st (st.getReg rd)

/-- `POP Rd`: `x[d] <- Pop()` (R164). -/
def execPop (d : Byte) (st : State) : Result :=
  withReg st d fun rd => pop st fun v t => .next (t.setReg rd v)

/-- `JMP p`: `pc <- p` (R165). -/
def execJmp (p : Byte) (st : State) : Result :=
  .next (st.setPc p)

end Sys2Proof.Machine
end

