-- ==== Sys2Proof/Machine/DataMovement.lean ====
section
/-! DEFINITION. The data-movement instructions LDI MOV CLR OUT IN STS LDS (spec/41_data_movement.md R120 to R127).
None writes a flag or the pc. -/

namespace Sys2Proof.Machine

/-- `LDI Rd,k`: `x[d] <- k` (R121). -/
def execLdi (d k : Byte) (st : State) : Result :=
  withReg st d fun rd => .next (st.setReg rd k)

/-- `MOV Rd,Rs`: `x[d] <- x[s]` (R122). -/
def execMov (d s : Byte) (st : State) : Result :=
  withReg st d fun rd => withReg st s fun rs => .next (st.setReg rd (st.getReg rs))

/-- `CLR Rd`: `x[d] <- 0x00`, Z not set (R123). -/
def execClr (d : Byte) (st : State) : Result :=
  withReg st d fun rd => .next (st.setReg rd 0x00#8)

/-- `OUT a,Rs`: `DM[a] <- x[s]` (R124). -/
def execOut (a s : Byte) (st : State) : Result :=
  withReg st s fun rs => .next (memWrite st (bank0 a) (st.getReg rs))

/-- `IN Rd,a`: `x[d] <- DM[a]` (R125). -/
def execIn (d a : Byte) (st : State) : Result :=
  withReg st d fun rd => .next (st.setReg rd (memRead st (bank0 a)))

/-- `STS a,Rs`: `DM[a + 256] <- x[s]` (R126). -/
def execSts (a s : Byte) (st : State) : Result :=
  withReg st s fun rs => .next (memWrite st (bank1 a) (st.getReg rs))

/-- `LDS Rd,a`: `x[d] <- DM[a + 256]` (R127). -/
def execLds (d a : Byte) (st : State) : Result :=
  withReg st d fun rd => .next (st.setReg rd (memRead st (bank1 a)))

end Sys2Proof.Machine
end

