-- ==== Sys2Proof/Machine/LogicArithmetic.lean ====
section
/-! DEFINITION. The logic and arithmetic instructions ORI ANDI XORI OR AND XOR ADDI SUBI ADD SUB INC DEC CPI CP
(spec/42_alu.md R131, R138 to R151). Each writes S N Z V C on every execution (R137); none writes the pc. -/

namespace Sys2Proof.Machine

/-- `ORI Rd,k`: `ALU(OR, x[d], k)` (R138). -/
def execOri (d k : Byte) (st : State) : Result :=
  withReg st d fun rd => aluWrite st .or rd k

/-- `ANDI Rd,k`: `ALU(AND, x[d], k)` (R139). -/
def execAndi (d k : Byte) (st : State) : Result :=
  withReg st d fun rd => aluWrite st .and rd k

/-- `XORI Rd,k`: `ALU(XOR, x[d], k)` (R140). -/
def execXori (d k : Byte) (st : State) : Result :=
  withReg st d fun rd => aluWrite st .xor rd k

/-- `ADDI Rd,k`: `ALU(ADD, x[d], k)` (R144). -/
def execAddi (d k : Byte) (st : State) : Result :=
  withReg st d fun rd => aluWrite st .add rd k

/-- `SUBI Rd,k`: `ALU(SUB, x[d], k)` (R145). -/
def execSubi (d k : Byte) (st : State) : Result :=
  withReg st d fun rd => aluWrite st .sub rd k

/-- `OR Rd,Rs`: `ALU(OR, x[d], x[s])` (R141). -/
def execOr (d s : Byte) (st : State) : Result :=
  withReg st d fun rd => withReg st s fun rs => aluWrite st .or rd (st.getReg rs)

/-- `AND Rd,Rs`: `ALU(AND, x[d], x[s])` (R142). -/
def execAnd (d s : Byte) (st : State) : Result :=
  withReg st d fun rd => withReg st s fun rs => aluWrite st .and rd (st.getReg rs)

/-- `XOR Rd,Rs`: `ALU(XOR, x[d], x[s])` (R143). -/
def execXor (d s : Byte) (st : State) : Result :=
  withReg st d fun rd => withReg st s fun rs => aluWrite st .xor rd (st.getReg rs)

/-- `ADD Rd,Rs`: `ALU(ADD, x[d], x[s])` (R146). -/
def execAdd (d s : Byte) (st : State) : Result :=
  withReg st d fun rd => withReg st s fun rs => aluWrite st .add rd (st.getReg rs)

/-- `SUB Rd,Rs`: `ALU(SUB, x[d], x[s])` (R147). -/
def execSub (d s : Byte) (st : State) : Result :=
  withReg st d fun rd => withReg st s fun rs => aluWrite st .sub rd (st.getReg rs)

/-- `INC Rd`: `ALU(ADD, x[d], 0x01)`, C written too (R148). -/
def execInc (d : Byte) (st : State) : Result :=
  withReg st d fun rd => aluWrite st .add rd 0x01#8

/-- `DEC Rd`: `ALU(SUB, x[d], 0x01)`, C written too (R149). -/
def execDec (d : Byte) (st : State) : Result :=
  withReg st d fun rd => aluWrite st .sub rd 0x01#8

/-- `CPI Rd,k`: `ALU(SUB, x[d], k)`, flags only (R150). -/
def execCpi (d k : Byte) (st : State) : Result :=
  withReg st d fun rd => aluCompare st rd k

/-- `CP Rd,Rs`: `ALU(SUB, x[d], x[s])`, flags only (R151). -/
def execCp (d s : Byte) (st : State) : Result :=
  withReg st d fun rd => withReg st s fun rs => aluCompare st rd (st.getReg rs)

end Sys2Proof.Machine
end

