-- ==== Sys2Proof/Machine/Shifts.lean ====
section
/-! DEFINITION. The shifts LSL LSR and NOP (spec/45_shifts_nop_invalid.md R180 to R182). None writes a flag. -/

namespace Sys2Proof.Machine

/-- `LSL Rd`: `x[d] <- x[d][6:0] ++ 0b0` (R180). -/
def execLsl (d : Byte) (st : State) : Result :=
  withReg st d fun rd => .next (st.setReg rd (st.getReg rd <<< 1))

/-- `LSR Rd`: `x[d] <- 0b0 ++ x[d][7:1]` (R181). -/
def execLsr (d : Byte) (st : State) : Result :=
  withReg st d fun rd => .next (st.setReg rd (st.getReg rd >>> 1))

/-- `NOP`: nothing (R182). -/
def execNop (st : State) : Result := .next st

end Sys2Proof.Machine
end

