-- ==== Sys2Proof/Machine/Dispatch.lean ====
section
/-! DEFINITION. The dispatch on the instruction to its handler (spec/40_control_fsm.md R103): one arm per constructor. -/

namespace Sys2Proof.Machine

def exec (i : Instr) (s : State) : Host.Outcome State Fault Refusal :=
  match i with
  | .nop => Sys2Proof.Machine.execNop s
  | .ldi d k => Sys2Proof.Machine.execLdi d k s
  | .mov d f => Sys2Proof.Machine.execMov d f s
  | .clr d => Sys2Proof.Machine.execClr d s
  | .out a f => Sys2Proof.Machine.execOut a f s
  | .inp d a => Sys2Proof.Machine.execIn d a s
  | .sts a f => Sys2Proof.Machine.execSts a f s
  | .lds d a => Sys2Proof.Machine.execLds d a s
  | .ori d k => Sys2Proof.Machine.execOri d k s
  | .andi d k => Sys2Proof.Machine.execAndi d k s
  | .xori d k => Sys2Proof.Machine.execXori d k s
  | .or d f => Sys2Proof.Machine.execOr d f s
  | .and d f => Sys2Proof.Machine.execAnd d f s
  | .xor d f => Sys2Proof.Machine.execXor d f s
  | .addi d k => Sys2Proof.Machine.execAddi d k s
  | .subi d k => Sys2Proof.Machine.execSubi d k s
  | .add d f => Sys2Proof.Machine.execAdd d f s
  | .sub d f => Sys2Proof.Machine.execSub d f s
  | .inc d => Sys2Proof.Machine.execInc d s
  | .dec d => Sys2Proof.Machine.execDec d s
  | .cpi d k => Sys2Proof.Machine.execCpi d k s
  | .cp d f => Sys2Proof.Machine.execCp d f s
  | .call p => Sys2Proof.Machine.execCall p s
  | .ret => Sys2Proof.Machine.execRet s
  | .push d => Sys2Proof.Machine.execPush d s
  | .pop d => Sys2Proof.Machine.execPop d s
  | .jmp p => Sys2Proof.Machine.execJmp p s
  | .breq p => Sys2Proof.Machine.execBreq p s
  | .brne p => Sys2Proof.Machine.execBrne p s
  | .brge p => Sys2Proof.Machine.execBrge p s
  | .brgt p => Sys2Proof.Machine.execBrgt p s
  | .brle p => Sys2Proof.Machine.execBrle p s
  | .brlt p => Sys2Proof.Machine.execBrlt p s
  | .lsl d => Sys2Proof.Machine.execLsl d s
  | .lsr d => Sys2Proof.Machine.execLsr d s

end Sys2Proof.Machine
end

