-- ==== Sys2Proof/Machine/Phases.lean ====
section
/-! DEFINITION. The fetch-decode-execute state machine: `step_state`, `step_instruction` and runs of steps
(spec/40_control_fsm.md R100 to R106, R112; spec/70_reset_and_hazards.md R238). -/

namespace Sys2Proof.Machine

/-- The Fetch phase; every right-hand side uses the pc at the start of the phase (R101). -/
def doFetch (s : State) : State :=
  { s with ir := pmRead s s.pc, mar := s.pc, pc := s.pc + 0x01#8, phase := .decode }

/-- The Decode phase; bits 31 to 24 of ir are not used (R102). -/
def doDecode (s : State) : State :=
  { s with opc := opcodeField s.ir, op1 := operand1Field s.ir, op2 := operand2Field s.ir, phase := .execute }

/-- The instruction in the decoded fields, if its opcode is recognized (R103). -/
def currentInstr (s : State) : Decoded := decodeFields s.cfg.opcodes s.opc s.op1 s.op2

/-- The transition back to Fetch at the end of the Execute phase (R103). -/
def toFetch (s : State) : State := { s with phase := .fetch }

/-- The Execute phase: the handler and `state <- Fetch`, or the full reset on an unrecognized opcode (R103, R183). -/
def doExecute (s : State) : Result :=
  match currentInstr s with
  | .instr i => andThen (exec i s) fun t => .next (toFetch t)
  | .rejected _ => .next (fullReset s)

/-- The action of the phase that `state` names; the invalid code resets and does nothing else (R100, R104). -/
def phaseAction (s : State) : Result :=
  match s.phase with
  | .fetch => .next (doFetch s)
  | .decode => .next (doDecode s)
  | .execute => doExecute s
  | .invalid => .next (fullReset s)

/-- Refuse a configuration outside the bounds of R5 (20_memory.md R56). -/
def underValidConfig (s : State) (o : Result) : Result :=
  if s.cfg.valid then o else .refused .invalidConfiguration

/-- `step_state()`: exactly one phase (R100). -/
def stepState (s : State) : Result := underValidConfig s (phaseAction s)

/-- `repeat step_state() until state = Execute`, at most `fuel` steps (R105). -/
def stepUntilExecute : Nat → State → Result
  | 0, s => .next s
  | fuel + 1, s =>
    andThen (stepState s) fun t => if t.phase = .execute then .next t else stepUntilExecute fuel t

/-- `step_instruction()` (R105). Three steps are the most it ever takes: from Execute it is Execute, Fetch, Decode. -/
def stepInstruction (s : State) : Result := stepUntilExecute 3 s

/-- The state after exactly `n` calls of `step_state` (70_reset_and_hazards.md R238 (a)). -/
def runSteps : Nat → State → Result
  | 0, s => .next s
  | n + 1, s => andThen (stepState s) (runSteps n)

/-- The state after exactly `n` calls of `step_instruction`. -/
def runInstructions : Nat → State → Result
  | 0, s => .next s
  | n + 1, s => andThen (stepInstruction s) (runInstructions n)

/-- The self-jump at which R238 (b) observes the end of a run: `state = Fetch` and `PMRead(pc)` is a `JMP` to pc. -/
def atSelfJump (s : State) : Bool :=
  s.phase == .fetch && decode s.cfg.opcodes (pmRead s s.pc) == .instr (.jmp s.pc)

/-- Put the container `w` at `pc`, in PROGRAM and so in Program Memory, which holds at least that address afterwards. -/
def installAtPc (s : State) (w : Container) : State :=
  let program := s.cfg.program.write s.pc.toNat w
  { s with
    cfg := { s.cfg with program := program, pmSize := max s.cfg.pmSize (s.pc.toNat + 1) }
    pm := s.pm.write s.pc.toNat w }

end Sys2Proof.Machine
end

