-- ==== Sys2Proof/Machine/Step.lean ====
section
/-! DEFINITION. One step of the machine, which is one `step_state` (spec/40_control_fsm.md R100; spec/00_scope.md R11:
"step: one step_state operation: one phase"), and the placing of an instruction so that the next step runs it. -/

namespace Sys2Proof.Machine

/-- One step: one phase (R100). -/
def step (s : State) : Host.Outcome State Fault Refusal := stepState s

/-- The state in which the container with value `w` stands at `pc` in PROGRAM and Program Memory, and its Fetch and
Decode phases have been performed, so that the very next step is its Execute phase (log entry 2). -/
def State.withFetchWord (s : State) (nbits w : Nat) : State :=
  doDecode (doFetch (installAtPc s (BitVec.ofNat 32 (w % 2 ^ nbits))))

end Sys2Proof.Machine
end

