-- ==== Sys2Proof/Machine/Interfaces.lean ====
section
/-! DEFINITION. The interfaces of the core (spec/50_interfaces.md): the clock edge of the driver (R191), the ports to the
four collaborators in one step (R192 to R196, R198), and the observation port `inspect` (R197, spec/40_control_fsm.md
R108). A meaning never reads them: they say what the step shows outside. -/

namespace Sys2Proof.Machine

/-! ## The driver -/

/-- The inputs at one rising clock edge (R191). -/
structure EdgeInputs where
  rst : Bool
  stepEn : Bool
  deriving DecidableEq, Repr

/-- One rising clock edge: `rst` first, then one `step_state` if enabled, else all state holds (R191,
60_exceptions.md R218). -/
def clockEdge (inp : EdgeInputs) (s : State) : Result :=
  underValidConfig s
    (if inp.rst then .next (fullReset s) else if inp.stepEn then phaseAction s else .next s)

/-! ## The ports to the collaborators -/

/-- The activity of the Data Memory port in one step (R193). -/
inductive DmAccess
  | idle
  | read (a : DataAddr)
  | write (a : DataAddr) (v : Byte)
  deriving DecidableEq, Repr

/-- The activity of the Stack port in one step: never push and pop together (R194). -/
inductive StkAccess
  | idle
  | push (v : Byte)
  | pop
  deriving DecidableEq, Repr

/-- The operands the ALU port shows in one step (R195). -/
structure AluCall where
  op : AluOp
  a : Byte
  b : Byte
  deriving DecidableEq, Repr

/-- The activity of all ports in one step (R192 to R196). -/
structure Ports where
  /-- `pm_addr` -/
  pmAddr : Byte
  /-- whether `pm_data` is sampled into ir -/
  pmSampled : Bool
  dm : DmAccess
  stk : StkAccess
  alu : Option AluCall
  /-- `sys_rst` -/
  sysRst : Bool
  deriving DecidableEq, Repr

/-- No port active: `pm_addr = pc` at all times, and nothing sampled or driven (R192, R198). -/
def Ports.idle (s : State) : Ports :=
  { pmAddr := s.pc, pmSampled := false, dm := .idle, stk := .idle, alu := none, sysRst := false }

/-- The port activity that needs the register a field selects; none where the field selects no register (R90). -/
def portsWithReg (s : State) (f : Byte) (k : Fin 32 → Ports) : Ports :=
  match regIndex s.cfg f with
  | some r => k r
  | none => Ports.idle s

/-- The ALU port of an instruction with the register operand `d` and the second operand `b`. -/
def portsAlu (s : State) (op : AluOp) (d : Byte) (b : Byte) : Ports :=
  portsWithReg s d fun rd => { Ports.idle s with alu := some ⟨op, s.getReg rd, b⟩ }

/-- The ALU port of an instruction with two register operands. -/
def portsAluReg (s : State) (op : AluOp) (d f : Byte) : Ports :=
  portsWithReg s d fun _ => portsWithReg s f fun rs => portsAlu s op d (s.getReg rs)

/-- The table of R198: the port activity of an instruction's Execute phase. -/
def executePorts (i : Instr) (s : State) : Ports :=
  match i with
  | .nop => Ports.idle s
  | .ldi _ _ => Ports.idle s
  | .mov _ _ => Ports.idle s
  | .clr _ => Ports.idle s
  | .out a f => portsWithReg s f fun rs => { Ports.idle s with dm := .write (bank0 a) (s.getReg rs) }
  | .inp d a => portsWithReg s d fun _ => { Ports.idle s with dm := .read (bank0 a) }
  | .sts a f => portsWithReg s f fun rs => { Ports.idle s with dm := .write (bank1 a) (s.getReg rs) }
  | .lds d a => portsWithReg s d fun _ => { Ports.idle s with dm := .read (bank1 a) }
  | .ori d k => portsAlu s .or d k
  | .andi d k => portsAlu s .and d k
  | .xori d k => portsAlu s .xor d k
  | .or d f => portsAluReg s .or d f
  | .and d f => portsAluReg s .and d f
  | .xor d f => portsAluReg s .xor d f
  | .addi d k => portsAlu s .add d k
  | .subi d k => portsAlu s .sub d k
  | .add d f => portsAluReg s .add d f
  | .sub d f => portsAluReg s .sub d f
  | .inc d => portsAlu s .add d 0x01#8
  | .dec d => portsAlu s .sub d 0x01#8
  | .cpi d k => portsAlu s .sub d k
  | .cp d f => portsAluReg s .sub d f
  | .call _ => { Ports.idle s with stk := .push s.pc }
  | .ret => { Ports.idle s with stk := .pop }
  | .push d => portsWithReg s d fun rd => { Ports.idle s with stk := .push (s.getReg rd) }
  | .pop d => portsWithReg s d fun _ => { Ports.idle s with stk := .pop }
  | .jmp _ => Ports.idle s
  | .breq _ => Ports.idle s
  | .brne _ => Ports.idle s
  | .brge _ => Ports.idle s
  | .brgt _ => Ports.idle s
  | .brle _ => Ports.idle s
  | .brlt _ => Ports.idle s
  | .lsl _ => Ports.idle s
  | .lsr _ => Ports.idle s

/-- The ports in the step about to be performed, `sys_rst` asserted in every step that performs a full reset
(R196, R198). -/
def ports (rst : Bool) (s : State) : Ports :=
  if rst then { Ports.idle s with sysRst := true }
  else match s.phase with
    | .fetch => { Ports.idle s with pmSampled := true }
    | .decode => Ports.idle s
    | .execute =>
      match currentInstr s with
      | .instr i => executePorts i s
      | .rejected _ => { Ports.idle s with sysRst := true }
    | .invalid => { Ports.idle s with sysRst := true }

/-- `dm_we` (R193). -/
def Ports.dmWe (p : Ports) : Bool :=
  match p.dm with
  | .write _ _ => true
  | .read _ => false
  | .idle => false

/-- `stk_push` (R194). -/
def Ports.stkPush (p : Ports) : Bool :=
  match p.stk with
  | .push _ => true
  | .pop => false
  | .idle => false

/-- `stk_pop` (R194). -/
def Ports.stkPop (p : Ports) : Bool := p.stk == .pop

/-- What a Data Memory port's activity does to the memory at the edge (R193). -/
def DmAccess.apply (acc : DmAccess) (m : Memory 8) : Memory 8 :=
  match acc with
  | .write a v => m.write a.toNat v
  | .read _ => m
  | .idle => m

/-- What a Stack port's activity leaves in the Stack at the edge (R194); nothing is left of a misused Stack under
STACK_FAULTS = fault (20_memory.md R59). -/
def StkAccess.apply (acc : StkAccess) (cfg : Config) (stk : List Byte) : Option (List Byte) :=
  match acc with
  | .push v => pushContents cfg stk v
  | .pop => (popContents cfg stk).map fun p => p.2
  | .idle => some stk

/-- How many collaborators a step uses. -/
def Ports.activity (p : Ports) : Nat :=
  (if p.pmSampled then 1 else 0) + (if p.dm = .idle then 0 else 1) + (if p.stk = .idle then 0 else 1) +
    (if p.alu = none then 0 else 1)

/-- The code of `alu_op` (R195, decision D2). -/
def AluOp.code : AluOp → BitVec 3
  | .or => 0#3
  | .and => 1#3
  | .xor => 2#3
  | .add => 3#3
  | .sub => 4#3

/-- `alu_flags = S ++ N ++ Z ++ V ++ C` (R195). -/
def AluOut.flagsWord (o : AluOut) : BitVec 5 :=
  BitVec.ofBool o.s ++ BitVec.ofBool o.n ++ BitVec.ofBool o.z ++ BitVec.ofBool o.v ++ BitVec.ofBool o.c

/-! ## The observation port -/

/-- The code of the 2-bit CPU state register (10_state.md R30, decision D13). -/
def Phase.code : Phase → BitVec 2
  | .fetch => 0#2
  | .decode => 1#2
  | .execute => 2#2
  | .invalid => 3#2

/-- The packed view `SR = I ++ S ++ N ++ Z ++ V ++ C` (10_state.md R25, decision D20). -/
def Status.packed (f : Status) : BitVec 6 :=
  BitVec.ofBool f.i ++ BitVec.ofBool f.s ++ BitVec.ofBool f.n ++ BitVec.ofBool f.z ++ BitVec.ofBool f.v ++
    BitVec.ofBool f.c

/-- The read-only snapshot: every element of the state (10_state.md R20) and the two introspection values of the Stack.
Which registers and which Data Memory bytes are reported is the observer's choice (40_control_fsm.md R108, decision
D28), so the snapshot holds all of them. -/
structure Snapshot where
  pc : Byte
  mar : Byte
  ir : Container
  state : BitVec 2
  opc : Byte
  op1 : Byte
  op2 : Byte
  sr : BitVec 6
  x : Vector Byte 32
  stackPointer : Nat
  lastPushed : Byte
  dm : Memory 8
  stk : List Byte
  pm : Memory 32
  deriving DecidableEq, Repr

/-- `inspect()` (40_control_fsm.md R108, R197): a function of the state alone. -/
def inspect (s : State) : Snapshot :=
  { pc := s.pc, mar := s.mar, ir := s.ir, state := s.phase.code, opc := s.opc, op1 := s.op1, op2 := s.op2,
    sr := s.sr.packed, x := s.x, stackPointer := pointer s, lastPushed := lastPushed s, dm := s.dm, stk := s.stk,
    pm := s.pm }

end Sys2Proof.Machine
end

