-- ==== Sys2Proof/Safety.lean ====
section
/-! DEFINITION. What claims are stated in: the invariant of the reachable states (spec/10_state.md R37), reachability,
safe runs, and the tables that say which registers, flags and stores an instruction touches (R22, R26,
spec/50_interfaces.md R198). -/

namespace Sys2Proof.Machine

/-! ## The invariant -/

/-- The container in ir is the one Program Memory holds at mar, and pc is one further (R37 (d), (e)). -/
def State.FetchedFromMar (s : State) : Prop := s.ir = pmRead s s.mar ∧ s.pc = s.mar + 0x01#8

/-- The decoded fields are the three fields of ir (R37 (d)). -/
def State.FieldsOfIr (s : State) : Prop :=
  s.opc = opcodeField s.ir ∧ s.op1 = operand1Field s.ir ∧ s.op2 = operand2Field s.ir

/-- The invariant of every state reachable from reset (R37), with the canonical form of Data Memory. -/
structure State.Inv (s : State) : Prop where
  /-- the parameters are within the bounds of 00_scope.md R5 -/
  config : s.cfg.valid = true
  /-- (a) `state` is one of Fetch, Decode, Execute -/
  phase : s.phase ≠ .invalid
  /-- (b) -/
  interrupt : s.sr.i = false
  /-- (c) -/
  negative : s.sr.n = s.sr.s
  /-- a zero result has bit 7 clear, so S and Z are never both set (42_alu.md R133, R134) -/
  signZero : ¬(s.sr.s = true ∧ s.sr.z = true)
  /-- (d) -/
  execute : s.phase = .execute → s.FieldsOfIr ∧ s.FetchedFromMar
  /-- (e) -/
  decode : s.phase = .decode → s.FetchedFromMar
  /-- (f) -/
  stack : s.stk.length ≤ s.cfg.stackDepth
  /-- (g) -/
  program : s.pm = s.cfg.program
  /-- Data Memory is in canonical form and lists no address beyond DM_SIZE -/
  dataMemory : s.dm.wf = true ∧ s.dm.within s.cfg.dmSize = true

/-- `s` is reached from the reset state under the parameters `cfg` (R36: every run starts there). -/
def Reachable (cfg : Config) (s : State) : Prop := ∃ n, runSteps n (State.resetOf cfg) = .next s

/-- Apply `f` to the next state an outcome holds. -/
def mapNext (f : State → State) (o : Result) : Result := andThen o fun t => .next (f t)

/-- The state with the four flags no instruction reads put to 0: I, N, V and C (10_state.md R26). -/
def State.eraseUnreadFlags (s : State) : State :=
  { s with sr := { s.sr with i := false, n := false, v := false, c := false } }

/-- The state with bits 31 to 24 of ir put to 0. -/
def State.eraseTopByte (s : State) : State := { s with ir := s.ir &&& 0x00FFFFFF#32 }

/-- A safe run: no step of it stops with a model fault or a refusal. -/
def SafeFrom (s : State) : Prop := ∀ n, ∃ t, runSteps n s = .next t

end Sys2Proof.Machine

namespace Sys2Proof
open Sys2Proof.Machine

/-! ## What an instruction touches -/

/-- The field of the register an instruction writes (10_state.md R22, the entries `w` and `rw`). -/
def Instr.destField : Instr → Option Byte
  | .ldi d _ | .mov d _ | .clr d | .inp d _ | .lds d _ => some d
  | .ori d _ | .andi d _ | .xori d _ | .or d _ | .and d _ | .xor d _ => some d
  | .addi d _ | .subi d _ | .add d _ | .sub d _ | .inc d | .dec d => some d
  | .pop d | .lsl d | .lsr d => some d
  | .out _ _ | .sts _ _ | .cpi _ _ | .cp _ _ | .push _ => none
  | .nop | .call _ | .ret | .jmp _ | .breq _ | .brne _ | .brge _ | .brgt _ | .brle _ | .brlt _ => none

/-- The register an instruction writes. -/
def Instr.destReg (cfg : Config) (i : Instr) : Option (Fin 32) := i.destField.bind (regIndex cfg)

/-- The same instruction with bits 4 to 0 of every register field only: the port of a 5-bit register select
(30_encoding.md R90). -/
def Instr.maskRegFields : Instr → Instr
  | .nop => .nop
  | .ldi d k => .ldi (d &&& 0x1F#8) k
  | .mov d s => .mov (d &&& 0x1F#8) (s &&& 0x1F#8)
  | .clr d => .clr (d &&& 0x1F#8)
  | .out a s => .out a (s &&& 0x1F#8)
  | .inp d a => .inp (d &&& 0x1F#8) a
  | .sts a s => .sts a (s &&& 0x1F#8)
  | .lds d a => .lds (d &&& 0x1F#8) a
  | .ori d k => .ori (d &&& 0x1F#8) k
  | .andi d k => .andi (d &&& 0x1F#8) k
  | .xori d k => .xori (d &&& 0x1F#8) k
  | .or d s => .or (d &&& 0x1F#8) (s &&& 0x1F#8)
  | .and d s => .and (d &&& 0x1F#8) (s &&& 0x1F#8)
  | .xor d s => .xor (d &&& 0x1F#8) (s &&& 0x1F#8)
  | .addi d k => .addi (d &&& 0x1F#8) k
  | .subi d k => .subi (d &&& 0x1F#8) k
  | .add d s => .add (d &&& 0x1F#8) (s &&& 0x1F#8)
  | .sub d s => .sub (d &&& 0x1F#8) (s &&& 0x1F#8)
  | .inc d => .inc (d &&& 0x1F#8)
  | .dec d => .dec (d &&& 0x1F#8)
  | .cpi d k => .cpi (d &&& 0x1F#8) k
  | .cp d s => .cp (d &&& 0x1F#8) (s &&& 0x1F#8)
  | .call p => .call p
  | .ret => .ret
  | .push d => .push (d &&& 0x1F#8)
  | .pop d => .pop (d &&& 0x1F#8)
  | .jmp p => .jmp p
  | .breq p => .breq p
  | .brne p => .brne p
  | .brge p => .brge p
  | .brgt p => .brgt p
  | .brle p => .brle p
  | .brlt p => .brlt p
  | .lsl d => .lsl (d &&& 0x1F#8)
  | .lsr d => .lsr (d &&& 0x1F#8)

/-- The 14 ALU-backed instructions, the only ones that write flags (10_state.md R26). -/
def Instr.aluBacked : Instr → Bool
  | .ori _ _ | .andi _ _ | .xori _ _ | .or _ _ | .and _ _ | .xor _ _ => true
  | .addi _ _ | .subi _ _ | .add _ _ | .sub _ _ | .inc _ | .dec _ | .cpi _ _ | .cp _ _ => true
  | .ldi _ _ | .mov _ _ | .clr _ | .out _ _ | .inp _ _ | .sts _ _ | .lds _ _ => false
  | .call _ | .ret | .push _ | .pop _ | .jmp _ => false
  | .breq _ | .brne _ | .brge _ | .brgt _ | .brle _ | .brlt _ => false
  | .lsl _ | .lsr _ | .nop => false

/-- The nine instructions that write pc in the Execute phase (10_state.md R24). -/
def Instr.writesPc : Instr → Bool
  | .call _ | .ret | .jmp _ | .breq _ | .brne _ | .brge _ | .brgt _ | .brle _ | .brlt _ => true
  | .ori _ _ | .andi _ _ | .xori _ _ | .or _ _ | .and _ _ | .xor _ _ => false
  | .addi _ _ | .subi _ _ | .add _ _ | .sub _ _ | .inc _ | .dec _ | .cpi _ _ | .cp _ _ => false
  | .ldi _ _ | .mov _ _ | .clr _ | .out _ _ | .inp _ _ | .sts _ _ | .lds _ _ => false
  | .push _ | .pop _ | .lsl _ | .lsr _ | .nop => false

/-- The four instructions that use the Stack (20_memory.md R50). -/
def Instr.usesStack : Instr → Bool
  | .call _ | .ret | .push _ | .pop _ => true
  | .ori _ _ | .andi _ _ | .xori _ _ | .or _ _ | .and _ _ | .xor _ _ => false
  | .addi _ _ | .subi _ _ | .add _ _ | .sub _ _ | .inc _ | .dec _ | .cpi _ _ | .cp _ _ => false
  | .ldi _ _ | .mov _ _ | .clr _ | .out _ _ | .inp _ _ | .sts _ _ | .lds _ _ => false
  | .jmp _ | .breq _ | .brne _ | .brge _ | .brgt _ | .brle _ | .brlt _ => false
  | .lsl _ | .lsr _ | .nop => false

/-- The Data Memory address an instruction stores to (20_memory.md R54). -/
def Instr.storeAddr : Instr → Option DataAddr
  | .out a _ => some (bank0 a)
  | .sts a _ => some (bank1 a)
  | .ori _ _ | .andi _ _ | .xori _ _ | .or _ _ | .and _ _ | .xor _ _ => none
  | .addi _ _ | .subi _ _ | .add _ _ | .sub _ _ | .inc _ | .dec _ | .cpi _ _ | .cp _ _ => none
  | .ldi _ _ | .mov _ _ | .clr _ | .inp _ _ | .lds _ _ => none
  | .call _ | .ret | .push _ | .pop _ | .jmp _ => none
  | .breq _ | .brne _ | .brge _ | .brgt _ | .brle _ | .brlt _ => none
  | .lsl _ | .lsr _ | .nop => none

end Sys2Proof
end

