-- ==== Sys2Proof/Certificates/Slice0/Obligations.lean ====
section
/-! DEFINITION. The statements for the provers, file by file of spec/. A register operand enters every statement
through `regIndex`, whose meaning is the statement `RegisterFieldSelection`; a field that selects no register is the
statement `IllFormedInstructionFaults`. So no form is shut out. -/

open Sys2Proof Sys2Proof.Machine

/-! ## Encoding and decoder (30_encoding.md) -/

/-- Decoding what the encoder writes gives the instruction back, for every opcode map that meets the two conditions of
R86 and every value of every operand field (R81, R84, R85, R94). The assignment of operands to fields is the spec's
decision D4 (log entry 4). -/
def Obligations.DecodeOfEncodeGivesInstruction : Prop :=
  ∀ (m : OpcodeMap) (i : Instr), m.valid = true → decode m (encode m i) = .instr i

/-- A container that decodes to an instruction is that instruction's encoding in every bit its format uses: no used
bit is dropped, and the bits marked `x` in R85 are the only ones ignored (R85, R89; decisions D4, D24, log entry 4). -/
def Obligations.EncodeOfDecodedKeepsUsedBits : Prop :=
  ∀ (m : OpcodeMap) (c : Container) (i : Instr), decode m c = .instr i →
    encode m i = c &&& i.mnemonic.format.usedBits

/-- R82: containers that agree in bits 23 to 0 decode and execute identically; the encoder writes the top byte as
zero; ir holds the container as fetched; and one step of two states that differ only in the top byte of ir gives the
same outcome but for that byte. -/
def Obligations.TopByteNeverInfluencesBehaviour : Prop :=
  (∀ (m : OpcodeMap) (c c' : Container), c &&& 0x00FFFFFF#32 = c' &&& 0x00FFFFFF#32 → decode m c = decode m c') ∧
  (∀ (m : OpcodeMap) (i : Instr), (encode m i).extractLsb 31 24 = 0x00#8) ∧
  (∀ s : State, s.cfg.valid = true → s.phase = .fetch →
    ∃ t, step s = .next t ∧ t.ir = pmRead s s.pc) ∧
  (∀ (s : State) (c : Container), c &&& 0x00FFFFFF#32 = s.ir &&& 0x00FFFFFF#32 →
    mapNext State.eraseTopByte (step { s with ir := c }) = mapNext State.eraseTopByte (step s))

/-- R88: the decoder is total. Each container is the instruction of a mnemonic whose opcode byte it holds, or it is
unrecognized by name; and executing an unrecognized opcode is the full reset, neither a fault nor a no-op. -/
def Obligations.EveryContainerIsClassified : Prop :=
  (∀ (m : OpcodeMap) (c : Container),
    (∃ mn, m.code mn = c.extractLsb 23 16 ∧
      decode m c = .instr (Instr.ofFields mn (c.extractLsb 15 8) (c.extractLsb 7 0))) ∨
    ((∀ mn, m.code mn ≠ c.extractLsb 23 16) ∧
      decode m c = .rejected (.unrecognizedOpcode (c.extractLsb 23 16)))) ∧
  (∀ s : State, s.cfg.valid = true → s.phase = .execute → (∀ mn, s.cfg.opcodes.code mn ≠ s.opc) →
    step s = .next (fullReset s))

/-- The seven example containers of R94 (LDI, OUT, CALL, RET, CPI, BREQ, NOP), one of ADD and one of LSL decode under the
default map to the instructions they stand for, and one with the unassigned opcode byte 0xFF is rejected. The opcode numbers but `NOP`'s are the spec's decision D3 (log entry 3). -/
def Obligations.ExampleContainersDecode : Prop :=
  decode OpcodeMap.default 0x00011001#32 = .instr (.ldi 16 1) ∧
  decode OpcodeMap.default 0x00042410#32 = .instr (.out 0x24 16) ∧
  decode OpcodeMap.default 0x00160500#32 = .instr (.call 5) ∧
  decode OpcodeMap.default 0x00170000#32 = .instr .ret ∧
  decode OpcodeMap.default 0x00141005#32 = .instr (.cpi 16 5) ∧
  decode OpcodeMap.default 0x001B0900#32 = .instr (.breq 9) ∧
  decode OpcodeMap.default 0x00000000#32 = .instr .nop ∧
  decode OpcodeMap.default 0x00101110#32 = .instr (.add 17 16) ∧
  decode OpcodeMap.default 0x00210200#32 = .instr (.lsl 2) ∧
  decode OpcodeMap.default 0x00FF0000#32 = .rejected (.unrecognizedOpcode 0xFF)

/-- R86: the default map meets its two conditions and assigns exactly the bytes 0x00 to 0x22, so 221 bytes are
unrecognized (decision D3, log entry 3). -/
def Obligations.DefaultMapAssignsTheFirst35Bytes : Prop :=
  OpcodeMap.default.valid = true ∧
  (∀ b : Byte, (OpcodeMap.default.lookup b).isSome = true ↔ b.toNat ≤ 0x22) ∧
  ((List.range 256).filter fun n => (OpcodeMap.default.lookup (BitVec.ofNat 8 n)).isNone).length = 221

/-- R90: the register a field selects under each value of the parameter REG_OOR (decision D5, log entry 5). -/
def Obligations.RegisterFieldSelection : Prop :=
  (∀ (cfg : Config) (f : Byte) (h : f.toNat ≤ 31), regIndex cfg f = some ⟨f.toNat, by omega⟩) ∧
  (∀ (cfg : Config) (f : Byte), 32 ≤ f.toNat → cfg.regOor = .fault → regIndex cfg f = none) ∧
  (∀ (cfg : Config) (f : Byte), 32 ≤ f.toNat → cfg.regOor = .mask5 →
    ∃ r, regIndex cfg f = some r ∧ r.val = f.toNat % 32)

/-- R90: under REG_OOR = fault an instruction with a register field above 31 stops with the model fault
RegIndexOutOfRange whatever its other operands, and only such an instruction does (decision D5, log entry 5). A PUSH on
a full Stack and a POP of an empty one are no exception: that the register field is looked at before the Stack is the
model's inference (log entry 23). -/
def Obligations.IllFormedInstructionFaults : Prop :=
  (∀ (i : Instr) (s : State), s.cfg.regOor = .fault → i.wellFormed = false →
    exec i s = .fault .regIndexOutOfRange) ∧
  (∀ (i : Instr) (s : State), i.wellFormed = true → exec i s ≠ .fault .regIndexOutOfRange)

/-- R90: under REG_OOR = mask5 an instruction acts as the one whose register fields are cut to bits 4 to 0
(decision D5, log entry 5). -/
def Obligations.MaskedRegisterFields : Prop :=
  ∀ (i : Instr) (s : State), s.cfg.regOor = .mask5 →
    exec i s = exec i.maskRegFields s ∧ i.maskRegFields.wellFormed = true

/-! ## The state machine (40_control_fsm.md) -/

/-- R101: the Fetch phase. The container comes from Program Memory at pc, or is 0x00000000 past PM_SIZE; mar takes the
pc before the increment; nothing else changes. -/
def Obligations.FetchPhase : Prop :=
  ∀ s : State, s.cfg.valid = true → s.phase = .fetch →
    ∃ pc' : Byte, pc'.toNat = (s.pc.toNat + 1) % 256 ∧
      step s = .next { s with
        ir := if s.pc.toNat < s.cfg.pmSize then s.pm.read s.pc.toNat else 0x00000000#32
        mar := s.pc
        pc := pc'
        phase := .decode }

/-- R102: the Decode phase splits ir into the three fields; nothing else changes. -/
def Obligations.DecodePhase : Prop :=
  ∀ s : State, s.cfg.valid = true → s.phase = .decode →
    step s = .next { s with
      opc := s.ir.extractLsb 23 16
      op1 := s.ir.extractLsb 15 8
      op2 := s.ir.extractLsb 7 0
      phase := .execute }

/-- A step in the Execute phase is `exec` of the instruction in the decoded fields, with the transition back to Fetch
around it; a model fault stands alone, and no instruction is refused. -/
def Obligations.StepRunsTheDecodedInstruction : Prop :=
  ∀ (s : State) (i : Instr), s.cfg.valid = true → s.phase = .execute →
    decodeFields s.cfg.opcodes s.opc s.op1 s.op2 = .instr i →
    (∀ t, exec i s = .next t → step s = .next { t with phase := .fetch }) ∧
    (∀ f, exec i s = .fault f → step s = .fault f) ∧
    (∀ r, exec i s ≠ .refused r)

/-- R103: the Execute phase. A recognized opcode runs the handler of its mnemonic on (op1, op2) and returns to Fetch, a
model fault standing alone; an unrecognized one is the full reset, which leaves Fetch; and no handler touches ir, mar,
opc, op1, op2, SR.I or Program Memory, nor the phase or the parameters. -/
def Obligations.ExecutePhase : Prop :=
  (∀ (s : State) (mn : Mnemonic), s.cfg.valid = true → s.phase = .execute → s.cfg.opcodes.code mn = s.opc →
    (∀ t, exec (Instr.ofFields mn s.op1 s.op2) s = .next t → step s = .next { t with phase := .fetch }) ∧
    (∀ f, exec (Instr.ofFields mn s.op1 s.op2) s = .fault f → step s = .fault f)) ∧
  (∀ s : State, s.cfg.valid = true → s.phase = .execute → (∀ mn, s.cfg.opcodes.code mn ≠ s.opc) →
    step s = .next (fullReset s) ∧ (fullReset s).phase = .fetch) ∧
  (∀ (i : Instr) (s t : State), exec i s = .next t →
    t.ir = s.ir ∧ t.mar = s.mar ∧ t.opc = s.opc ∧ t.op1 = s.op1 ∧ t.op2 = s.op2 ∧ t.sr.i = s.sr.i ∧ t.pm = s.pm ∧
    t.phase = s.phase ∧ t.cfg = s.cfg)

/-- R109: in the Execute phase every state has one of three outcomes: the handler's next state, the handler's model
fault, the full reset. It is never a refusal, and a model fault arises in the two cases of 00_scope.md R9 only: a
register field above 31, and a misused Stack, each under the value fault of its parameter. -/
def Obligations.ExecutePhaseIsTotal : Prop :=
  (∀ s : State, s.cfg.valid = true → s.phase = .execute →
    (∃ mn t, s.cfg.opcodes.code mn = s.opc ∧ exec (Instr.ofFields mn s.op1 s.op2) s = .next t ∧
      step s = .next { t with phase := .fetch }) ∨
    (∃ mn f, s.cfg.opcodes.code mn = s.opc ∧ exec (Instr.ofFields mn s.op1 s.op2) s = .fault f ∧
      step s = .fault f) ∨
    ((∀ mn, s.cfg.opcodes.code mn ≠ s.opc) ∧ step s = .next (fullReset s))) ∧
  (∀ (i : Instr) (s : State) (f : Fault), exec i s = .fault f →
    (f = .regIndexOutOfRange ∧ s.cfg.regOor = .fault ∧ i.wellFormed = false) ∨
    (f = .stackOverflow ∧ s.cfg.stackFaults = .fault ∧ s.cfg.stackDepth ≤ s.stk.length ∧
      ∃ b, i = .call b ∨ i = .push b) ∨
    (f = .stackUnderflow ∧ s.cfg.stackFaults = .fault ∧ s.stk = [] ∧ ∃ b, i = .ret ∨ i = .pop b))

/-- The three phases of one instruction from a state at Fetch (R112, R240): three steps are the handler of the
instruction at pc, run with pc already one further, and the return to Fetch. -/
def Obligations.InstructionCycleIsThreeSteps : Prop :=
  ∀ (s : State) (i : Instr), s.cfg.valid = true → s.phase = .fetch →
    decode s.cfg.opcodes (pmRead s s.pc) = .instr i →
    runSteps 3 s = mapNext (fun t => { t with phase := .fetch })
      (exec i { s with
        ir := pmRead s s.pc
        mar := s.pc
        pc := s.pc + 0x01#8
        opc := (pmRead s s.pc).extractLsb 23 16
        op1 := (pmRead s s.pc).extractLsb 15 8
        op2 := (pmRead s s.pc).extractLsb 7 0
        phase := .execute })

/-- R104: a step that finds the invalid code performs the full reset and nothing else; afterwards the phase is Fetch
(decision D13, log entry 13). -/
def Obligations.InvalidStateCodeResets : Prop :=
  ∀ s : State, s.cfg.valid = true → s.phase = .invalid →
    step s = .next (fullReset s) ∧ (fullReset s).phase = .fetch

/-- R105: a call of `step_instruction` that returns leaves the phase at Execute, and is one, two or three steps
according to the phase at entry (decision D14, log entry 15). -/
def Obligations.StepInstructionEndsAtExecute : Prop :=
  (∀ s t : State, stepInstruction s = .next t → t.phase = .execute) ∧
  (∀ s : State, s.phase = .execute → stepInstruction s = runSteps 3 s) ∧
  (∀ s : State, s.phase = .fetch → stepInstruction s = runSteps 2 s) ∧
  (∀ s : State, s.phase = .decode → stepInstruction s = runSteps 1 s)

/-- R106: from a state at Fetch, n + 1 calls of `step_instruction` are 3n + 2 steps: the Execute phase of the last
instruction fetched is still pending (decision D14, log entry 15). -/
def Obligations.InstructionCallsLagOneExecute : Prop :=
  ∀ (n : Nat) (s : State), s.phase = .fetch → runInstructions (n + 1) s = runSteps (3 * n + 2) s

/-- R107, R231: the full reset puts every element to its reset value whatever the state was, twice is once, and an
unrecognized opcode, an invalid state and the driver's reset all perform it. That `rst` resets at a clock edge for
either `step_en` is the spec's decision D1 (log entry 16), and that the step which finds the invalid code does nothing
else is its decision D13 (log entry 13). -/
def Obligations.FullResetRestoresEverything : Prop :=
  (∀ s : State, (fullReset s).phase = .fetch ∧ (fullReset s).pc = 0x00#8 ∧ (fullReset s).mar = 0x00#8 ∧
    (fullReset s).ir = 0x00000000#32 ∧ (fullReset s).opc = 0x00#8 ∧ (fullReset s).op1 = 0x00#8 ∧
    (fullReset s).op2 = 0x00#8 ∧ (∀ r, (fullReset s).getReg r = 0x00#8) ∧
    (fullReset s).sr = ⟨false, false, false, false, false, false⟩ ∧ (fullReset s).stk = [] ∧
    (fullReset s).dm = s.cfg.dmInit ∧ (fullReset s).pm = s.cfg.program ∧ (fullReset s).cfg = s.cfg) ∧
  (∀ s s' : State, s.cfg = s'.cfg → fullReset s = fullReset s') ∧
  (∀ s : State, fullReset (fullReset s) = fullReset s) ∧
  (∀ s : State, s.cfg.valid = true →
    (∀ e, clockEdge ⟨true, e⟩ s = .next (fullReset s)) ∧
    (s.phase = .invalid → step s = .next (fullReset s)) ∧
    (s.phase = .execute → (∀ mn, s.cfg.opcodes.code mn ≠ s.opc) → step s = .next (fullReset s)))

/-! ## State, reset and whole-machine rules (10_state.md, 60_exceptions.md, 70_reset_and_hazards.md) -/

/-- R35: the machine right after reset under the default parameters (DM_INIT all zero is decision D10, the decoded
fields are registers by D16; that nothing is loaded is log entry 11). -/
def Obligations.StateAfterReset : Prop :=
  State.reset.phase = .fetch ∧ State.reset.pc = 0x00#8 ∧ (∀ r, State.reset.getReg r = 0x00#8) ∧
  State.reset.sr = ⟨false, false, false, false, false, false⟩ ∧ State.reset.mar = 0x00#8 ∧
  State.reset.ir = 0x00000000#32 ∧ State.reset.opc = 0x00#8 ∧ State.reset.op1 = 0x00#8 ∧ State.reset.op2 = 0x00#8 ∧
  State.reset.stk = [] ∧ (∀ a : DataAddr, memRead State.reset a = 0x00#8) ∧
  (∀ a : Byte, pmRead State.reset a = 0x00000000#32) ∧ State.reset.cfg = Config.default

/-- R37: every step keeps the invariant of the reachable states. -/
def Obligations.EveryStepKeepsTheInvariant : Prop :=
  ∀ s t : State, s.Inv → step s = .next t → t.Inv

/-- R37: the state after reset meets the invariant, under the default parameters and under any within the bounds
of 00_scope.md R5. -/
def Obligations.ResetMeetsTheInvariant : Prop :=
  State.reset.Inv ∧ ∀ cfg : Config, cfg.valid = true → (State.resetOf cfg).Inv

/-- R37: under parameters within the bounds of 00_scope.md R5, every state reached from reset meets the invariant. -/
def Obligations.EveryReachableStateMeetsTheInvariant : Prop :=
  ∀ (cfg : Config) (s : State), cfg.valid = true → Reachable cfg s → s.Inv

/-- A program whose containers are no stack instructions, and whose register fields are in range or masked, never stops
the machine: from any state that meets the invariant every number of steps has a next state. Unrecognized opcodes are
no exception to this, they reset and go on (R88, R109, R110). The model faults that are ruled out are those of R59, R90 and R229. -/
def Obligations.WellFormedProgramsWithoutStackNeverStop : Prop :=
  ∀ s : State, s.Inv →
    (∀ (a : Byte) (i : Instr), decode s.cfg.opcodes (pmRead s a) = .instr i →
      i.usesStack = false ∧ (i.wellFormed = true ∨ s.cfg.regOor = .mask5)) →
    SafeFrom s

/-- R212: an opcode byte that is assigned to no mnemonic is no error value: the Execute phase answers the next state in
which every element is at its reset value, and nothing of the address or the instruction survives. -/
def Obligations.UnrecognizedOpcodeLeavesNoTrace : Prop :=
  ∀ s : State, s.cfg.valid = true → s.phase = .execute → (∀ mn, s.cfg.opcodes.code mn ≠ s.opc) →
    ∃ t, step s = .next t ∧ t = State.resetOf s.cfg ∧ t.mar = 0x00#8 ∧ t.ir = 0x00000000#32 ∧ t.opc = 0x00#8 ∧
      t.op1 = 0x00#8 ∧ t.op2 = 0x00#8 ∧ t.pc = 0x00#8 ∧ t.phase = .fetch ∧ t.stk = [] ∧ (∀ r, t.getReg r = 0x00#8) ∧
      t.dm = s.cfg.dmInit

/-- R237: a run from reset that comes to an unrecognized opcode at its k-th step comes back to the reset state at every
multiple of k + 1 steps, for ever. -/
def Obligations.UnrecognizedOpcodeLoopsForEver : Prop :=
  ∀ (cfg : Config) (k : Nat) (t : State), cfg.valid = true → runSteps k (State.resetOf cfg) = .next t →
    t.phase = .execute → (∀ mn, cfg.opcodes.code mn ≠ t.opc) →
    ∀ m : Nat, runSteps (m * (k + 1)) (State.resetOf cfg) = .next (State.resetOf cfg)

/-- R238 (b): from a self-jump on, no register, flag, Data Memory byte or Stack entry ever changes, in no phase, and
after every three steps pc is back and the machine is at the self-jump again (decision D18, log entry 24). -/
def Obligations.SelfJumpIsAFixedPoint : Prop :=
  ∀ (s : State) (n : Nat), s.cfg.valid = true → atSelfJump s = true →
    ∃ t, runSteps n s = .next t ∧ t.x = s.x ∧ t.sr = s.sr ∧ t.dm = s.dm ∧ t.stk = s.stk ∧
      (n % 3 = 0 → t.pc = s.pc ∧ atSelfJump t = true)

/-- R28: mar takes the pc before the increment in the Fetch phase; no instruction writes it, none reads it, and it
is 0 after reset. -/
def Obligations.MarIsForInspectionOnly : Prop :=
  (∀ s : State, s.cfg.valid = true → s.phase = .fetch → ∃ t, step s = .next t ∧ t.mar = s.pc) ∧
  (∀ (i : Instr) (s t : State), exec i s = .next t → t.mar = s.mar) ∧
  (∀ (i : Instr) (s : State) (m : Byte),
    exec i { s with mar := m } = mapNext (fun t => { t with mar := m }) (exec i s)) ∧
  (∀ cfg : Config, (State.resetOf cfg).mar = 0x00#8)

/-- R217: reset clears SR.I, no step sets it, and nothing reads it: a step of the state with the other value of I
differs in that flag at most. -/
def Obligations.InterruptFlagIsInert : Prop :=
  (∀ cfg : Config, (State.resetOf cfg).sr.i = false) ∧
  (∀ s t : State, s.sr.i = false → step s = .next t → t.sr.i = false) ∧
  (∀ (s : State) (b : Bool),
    mapNext (fun t => { t with sr := { t.sr with i := false } }) (step { s with sr := { s.sr with i := b } }) =
      mapNext (fun t => { t with sr := { t.sr with i := false } }) (step s))

/-- R26: I, N, V and C influence nothing a program does. Runs of any length from two states that differ only in those
four flags stop alike, or agree in everything but them. -/
def Obligations.UnreadFlagsInfluenceNothing : Prop :=
  ∀ (n : Nat) (s : State),
    mapNext State.eraseUnreadFlags (runSteps n s.eraseUnreadFlags) =
      mapNext State.eraseUnreadFlags (runSteps n s)

/-- R26: an instruction that is not ALU-backed leaves the whole status register as it was. -/
def Obligations.OnlyAluBackedInstructionsWriteFlags : Prop :=
  ∀ (i : Instr) (s t : State), i.aluBacked = false → exec i s = .next t → t.sr = s.sr

/-- R24: in the Execute phase only CALL, RET, JMP and the six branches write pc. -/
def Obligations.OnlyControlFlowWritesPc : Prop :=
  ∀ (i : Instr) (s t : State), i.writesPc = false → exec i s = .next t → t.pc = s.pc

/-! ## Memories (20_memory.md) -/

/-- R54: OUT and IN use the address operand itself, STS and LDS the operand plus 256, without wrap. OUT leaves all of
bank 1 as it was and STS all of bank 0. IN and LDS load what their own bank holds, and the address is the constant in
the instruction: no register changes it. -/
def Obligations.DataBanks : Prop :=
  (∀ (a f : Byte) (s : State) (r : Fin 32), regIndex s.cfg f = some r →
    exec (.out a f) s = .next { s with dm := s.dm.write a.toNat (s.getReg r) }) ∧
  (∀ (a f : Byte) (s : State) (r : Fin 32), regIndex s.cfg f = some r →
    exec (.sts a f) s = .next { s with dm := s.dm.write (a.toNat + 256) (s.getReg r) }) ∧
  (∀ (d a : Byte) (s : State) (r : Fin 32), regIndex s.cfg d = some r →
    exec (.inp d a) s = .next { s with x := s.x.set r (s.dm.read a.toNat) }) ∧
  (∀ (d a : Byte) (s : State) (r : Fin 32), regIndex s.cfg d = some r →
    exec (.lds d a) s = .next { s with x := s.x.set r (s.dm.read (a.toNat + 256)) }) ∧
  (∀ (a f : Byte) (s t : State) (n : Nat), exec (.out a f) s = .next t → 256 ≤ n → t.dm.read n = s.dm.read n) ∧
  (∀ (a f : Byte) (s t : State) (n : Nat), exec (.sts a f) s = .next t → n < 256 → t.dm.read n = s.dm.read n)

/-- R53, R66 (a): a load returns the byte the store to the same address of the same bank wrote, whatever registers the
two name, and a load from any other address what was there before (reset contents: decision D10, log entry 10). -/
def Obligations.StoreThenLoadReturnsTheByte : Prop :=
  ∀ (a b d f : Byte) (s t : State) (rs rd : Fin 32), s.dm.wf = true →
    regIndex s.cfg f = some rs → regIndex s.cfg d = some rd →
    (exec (.out a f) s = .next t →
      t.dm.wf = true ∧
      exec (.inp d b) t = .next { t with x := t.x.set rd (if b = a then s.getReg rs else memRead s (bank0 b)) } ∧
      exec (.lds d b) t = .next { t with x := t.x.set rd (memRead s (bank1 b)) }) ∧
    (exec (.sts a f) s = .next t →
      t.dm.wf = true ∧
      exec (.lds d b) t = .next { t with x := t.x.set rd (if b = a then s.getReg rs else memRead s (bank1 b)) } ∧
      exec (.inp d b) t = .next { t with x := t.x.set rd (memRead s (bank0 b)) })

/-- R69: no instruction writes Program Memory, it equals PROGRAM after every step of a state in which it did, and a fetch
takes PROGRAM[pc], or 0 out of range. -/
def Obligations.ProgramMemoryIsReadOnly : Prop :=
  (∀ (i : Instr) (s t : State), exec i s = .next t → t.pm = s.pm) ∧
  (∀ s t : State, s.pm = s.cfg.program → step s = .next t → t.pm = t.cfg.program ∧ t.cfg = s.cfg) ∧
  (∀ s : State, s.cfg.valid = true → s.phase = .fetch → s.pm = s.cfg.program →
    ∃ t, step s = .next t ∧
      t.ir = if s.pc.toNat < s.cfg.pmSize then s.cfg.program.read s.pc.toNat else 0x00000000#32)

/-- R56: a configuration with fewer than 512 entries of Data Memory is refused at every step and every clock edge, not
guessed at (log entry 12). -/
def Obligations.SmallDataMemoryIsRefused : Prop :=
  ∀ s : State, s.cfg.dmSize < 512 →
    step s = .refused .invalidConfiguration ∧ ∀ inp, clockEdge inp s = .refused .invalidConfiguration

/-- R58: where the Stack has room, Push appends; where it has an entry, Pop takes what was pushed last; after such a
push, a pop hands on that byte with the Stack as it was before; the entries below the top never change. -/
def Obligations.StackIsLastInFirstOut : Prop :=
  (∀ (s : State) (v : Byte), s.stk.length < s.cfg.stackDepth → push s v = .next { s with stk := s.stk ++ [v] }) ∧
  (∀ (s : State) (below : List Byte) (v : Byte) (k : Byte → State → Result), s.stk = below ++ [v] →
    pop s k = k v { s with stk := below }) ∧
  (∀ (s t : State) (v : Byte) (k : Byte → State → Result), s.stk.length < s.cfg.stackDepth → push s v = .next t →
    pop t k = k v s) ∧
  (∀ (s t : State) (v : Byte) (j : Nat), s.stk.length < s.cfg.stackDepth → push s v = .next t → j < s.stk.length →
    t.stk[j]? = s.stk[j]?) ∧
  (∀ (s t : State) (j : Nat), pop s (fun _ u => .next u) = .next t → j + 1 < s.stk.length → t.stk[j]? = s.stk[j]?)

/-- R59: under STACK_FAULTS = fault a full Stack stops CALL and PUSH, and an empty one stops RET and POP, each with the
model fault the spec names (decision D12, log entry 8). -/
def Obligations.StackMisuseFaults : Prop :=
  ∀ s : State, s.cfg.stackFaults = .fault →
  (∀ p : Byte, s.cfg.stackDepth ≤ s.stk.length → exec (.call p) s = .fault .stackOverflow) ∧
  (∀ (d : Byte) (r : Fin 32), regIndex s.cfg d = some r → s.cfg.stackDepth ≤ s.stk.length →
    exec (.push d) s = .fault .stackOverflow) ∧
  (s.stk = [] → exec .ret s = .fault .stackUnderflow) ∧
  (∀ (d : Byte) (r : Fin 32), regIndex s.cfg d = some r → s.stk = [] →
    exec (.pop d) s = .fault .stackUnderflow)

/-- R59, R229: under a supplied STACK_FAULTS the four stack instructions go on where they would fault: a pop of the empty
Stack returns the supplied byte and leaves the supplied contents, and a push onto a full one loses the new byte, the
oldest, the top or all below, as supplied. What can be supplied is the model's choice (decision D12, log entry 8). -/
def Obligations.SuppliedStackBehaviour : Prop :=
  ∀ (s : State) (b : StackMisuse), s.cfg.stackFaults = .supplied b →
  (∀ (p : Byte), s.cfg.stackDepth ≤ s.stk.length →
    exec (.call p) s = .next { s with stk := fullPush b.fullPush s.stk s.pc, pc := p }) ∧
  (∀ (d : Byte) (r : Fin 32), regIndex s.cfg d = some r → s.cfg.stackDepth ≤ s.stk.length →
    exec (.push d) s = .next { s with stk := fullPush b.fullPush s.stk (s.getReg r) }) ∧
  (s.stk = [] → exec .ret s = .next { s with stk := b.poppedStack, pc := b.poppedByte }) ∧
  (∀ (d : Byte) (r : Fin 32), regIndex s.cfg d = some r → s.stk = [] →
    exec (.pop d) s = .next { s with stk := b.poppedStack, x := s.x.set r b.poppedByte }) ∧
  (∀ (v oldest top : Byte) (l : List Byte),
    fullPush .drop l v = l ∧ fullPush .dropOldest (oldest :: l) v = l ++ [v] ∧
    fullPush .replaceTop (l ++ [top]) v = l ++ [v] ∧ fullPush .restart (oldest :: l) v = [v]) ∧
  (∀ (f : FullPush) (l : List Byte) (v : Byte), (fullPush f l v).length ≤ l.length)

/-! ## Data movement (41_data_movement.md) -/

/-- LDI, MOV and CLR (R121, R122, R123): the destination takes the immediate, the source register's byte, or zero, and
nothing else changes, no flag among it. -/
def Obligations.LoadImmediateMoveAndClear : Prop :=
  (∀ (d k : Byte) (s : State) (r : Fin 32), regIndex s.cfg d = some r →
    exec (.ldi d k) s = .next { s with x := s.x.set r k }) ∧
  (∀ (d f : Byte) (s : State) (r q : Fin 32), regIndex s.cfg d = some r → regIndex s.cfg f = some q →
    exec (.mov d f) s = .next { s with x := s.x.set r (s.getReg q) }) ∧
  (∀ (d : Byte) (s : State) (r : Fin 32), regIndex s.cfg d = some r →
    exec (.clr d) s = .next { s with x := s.x.set r 0x00#8 })

/-- What the register-only instructions LDI, MOV, CLR, IN, LDS, LSL and LSR leave unchanged: every register but the
destination, every flag, pc, the other control registers, the Stack, both memories. -/
def Obligations.FrameOfRegisterOnlyInstructions : Prop :=
  ∀ (i : Instr) (s t : State),
    (∃ d k f a, i = .ldi d k ∨ i = .mov d f ∨ i = .clr d ∨ i = .inp d a ∨ i = .lds d a ∨ i = .lsl d ∨ i = .lsr d) →
    exec i s = .next t →
    (∀ r, i.destReg s.cfg ≠ some r → t.getReg r = s.getReg r) ∧
    t.sr = s.sr ∧ t.pc = s.pc ∧ t.mar = s.mar ∧ t.ir = s.ir ∧ t.phase = s.phase ∧ t.opc = s.opc ∧ t.op1 = s.op1 ∧
    t.op2 = s.op2 ∧ t.stk = s.stk ∧ (∀ a : Nat, t.dm.read a = s.dm.read a) ∧ (∀ a, pmRead t a = pmRead s a) ∧
    t.cfg = s.cfg

/-- What the storing instructions OUT and STS leave unchanged: everything but the one byte at the address stored to. -/
def Obligations.FrameOfStoringInstructions : Prop :=
  ∀ (i : Instr) (s t : State), (∃ a f, i = .out a f ∨ i = .sts a f) → exec i s = .next t →
    (∀ ea, i.storeAddr = some ea → ∀ a : Nat, a ≠ ea.toNat → t.dm.read a = s.dm.read a) ∧
    (∀ r, t.getReg r = s.getReg r) ∧ t.sr = s.sr ∧ t.pc = s.pc ∧ t.mar = s.mar ∧ t.ir = s.ir ∧ t.phase = s.phase ∧
    t.opc = s.opc ∧ t.op1 = s.op1 ∧ t.op2 = s.op2 ∧ t.stk = s.stk ∧ (∀ a, pmRead t a = pmRead s a) ∧ t.cfg = s.cfg

/-! ## The ALU and the instructions on it (42_alu.md) -/

/-- R132: the result byte of each of the five operations, the sum and the difference modulo 256. -/
def Obligations.AluResultByte : Prop :=
  ∀ a b : Byte,
    (alu .or a b).result = a ||| b ∧ (alu .and a b).result = a &&& b ∧ (alu .xor a b).result = a ^^^ b ∧
    (alu .add a b).result.toNat = (a.toNat + b.toNat) % 256 ∧
    (alu .sub a b).result.toNat = if b.toNat ≤ a.toNat then a.toNat - b.toNat else a.toNat + 256 - b.toNat

/-- R133, R134: Z says that the 8-bit result is zero; S and N are both bit 7 of the result, for all five operations, the
overflow not consulted. -/
def Obligations.ZeroSignAndNegativeFlags : Prop :=
  ∀ (op : AluOp) (a b : Byte),
    ((alu op a b).z = true ↔ (alu op a b).result = 0x00#8) ∧
    (alu op a b).s = (alu op a b).result.getLsbD 7 ∧ (alu op a b).n = (alu op a b).result.getLsbD 7

/-- R135, R136: C is the carry out of the 9-bit sum or the borrow, V says that the signed sum or difference lies outside
-128 to 127, and both are 0 for a logic operation (decision D6 of the spec, from general knowledge; log entry 6). -/
def Obligations.CarryAndOverflowFlags : Prop :=
  ∀ a b : Byte,
    ((alu .add a b).c = true ↔ 255 < a.toNat + b.toNat) ∧
    ((alu .sub a b).c = true ↔ a.toNat < b.toNat) ∧
    ((alu .add a b).v = true ↔ a.toInt + b.toInt < -128 ∨ 127 < a.toInt + b.toInt) ∧
    ((alu .sub a b).v = true ↔ a.toInt - b.toInt < -128 ∨ 127 < a.toInt - b.toInt) ∧
    ∀ op, op = .or ∨ op = .and ∨ op = .xor → (alu op a b).c = false ∧ (alu op a b).v = false

/-- R131, R137: the operation and the operands each of the 14 ALU-backed instructions gives the ALU, and the commit of
S N Z V C on every execution with SR.I not written. The 12 that write a register write the ALU's result; CPI and CP
write none. Everything else is as before. -/
def Obligations.AluBackedInstructions : Prop :=
  ∀ (s : State) (d f k : Byte) (r q : Fin 32), regIndex s.cfg d = some r → regIndex s.cfg f = some q →
    let commit := fun (o : AluOut) => (⟨s.sr.i, o.s, o.n, o.z, o.v, o.c⟩ : Status)
    let write := fun (op : AluOp) (b : Byte) => (Host.Outcome.next { s with
      x := s.x.set r (alu op (s.getReg r) b).result
      sr := commit (alu op (s.getReg r) b) } : Result)
    let compare := fun (b : Byte) => (Host.Outcome.next { s with sr := commit (alu .sub (s.getReg r) b) } : Result)
    exec (.ori d k) s = write .or k ∧ exec (.andi d k) s = write .and k ∧ exec (.xori d k) s = write .xor k ∧
    exec (.or d f) s = write .or (s.getReg q) ∧ exec (.and d f) s = write .and (s.getReg q) ∧
    exec (.xor d f) s = write .xor (s.getReg q) ∧
    exec (.addi d k) s = write .add k ∧ exec (.subi d k) s = write .sub k ∧
    exec (.add d f) s = write .add (s.getReg q) ∧ exec (.sub d f) s = write .sub (s.getReg q) ∧
    exec (.inc d) s = write .add 0x01#8 ∧ exec (.dec d) s = write .sub 0x01#8 ∧
    exec (.cpi d k) s = compare k ∧ exec (.cp d f) s = compare (s.getReg q)

/-- What the 14 ALU-backed instructions leave unchanged: every register but the destination (CPI and CP have none), the
flag I, pc, the other control registers, the Stack, both memories. -/
def Obligations.FrameOfAluBackedInstructions : Prop :=
  ∀ (i : Instr) (s t : State), i.aluBacked = true → exec i s = .next t →
    (∀ r, i.destReg s.cfg ≠ some r → t.getReg r = s.getReg r) ∧
    t.sr.i = s.sr.i ∧ t.pc = s.pc ∧ t.mar = s.mar ∧ t.ir = s.ir ∧ t.phase = s.phase ∧ t.opc = s.opc ∧ t.op1 = s.op1 ∧
    t.op2 = s.op2 ∧ t.stk = s.stk ∧ (∀ a : Nat, t.dm.read a = s.dm.read a) ∧ (∀ a, pmRead t a = pmRead s a) ∧
    t.cfg = s.cfg

/-! ## Control flow and stack (43_control_flow_stack.md) -/

/-- CALL, RET, PUSH, POP and JMP (R161 to R165), where the Stack has room or an entry: CALL pushes pc, which is the
address of the CALL plus 1, and jumps; RET jumps to what it pops; PUSH and POP move one byte; JMP jumps. Nothing else
changes. -/
def Obligations.CallReturnPushPopAndJump : Prop :=
  (∀ (p : Byte) (s : State), s.stk.length < s.cfg.stackDepth →
    exec (.call p) s = .next { s with stk := s.stk ++ [s.pc], pc := p }) ∧
  (∀ (s : State) (below : List Byte) (v : Byte), s.stk = below ++ [v] →
    exec .ret s = .next { s with stk := below, pc := v }) ∧
  (∀ (d : Byte) (s : State) (r : Fin 32), regIndex s.cfg d = some r → s.stk.length < s.cfg.stackDepth →
    exec (.push d) s = .next { s with stk := s.stk ++ [s.getReg r] }) ∧
  (∀ (d : Byte) (s : State) (r : Fin 32) (below : List Byte) (v : Byte), regIndex s.cfg d = some r →
    s.stk = below ++ [v] → exec (.pop d) s = .next { s with stk := below, x := s.x.set r v }) ∧
  (∀ (p : Byte) (s : State), exec (.jmp p) s = .next { s with pc := p })

/-- R162 (the source's scenario): after a CALL for which the Stack had room, a RET in any later state whose Stack is as
the CALL left it goes to the address after the CALL and leaves the Stack as it was before the CALL. -/
def Obligations.ReturnMatchesCall : Prop :=
  ∀ (p : Byte) (s t u : State), s.stk.length < s.cfg.stackDepth → exec (.call p) s = .next t → u.stk = t.stk →
    t.pc = p ∧ exec .ret u = .next { u with stk := s.stk, pc := s.pc }

/-- What the stack, jump and branch instructions and NOP leave unchanged: every register but POP's destination, every
flag, the other control registers, both memories; PUSH, POP and NOP leave pc, and all but the four stack instructions
leave the Stack. -/
def Obligations.FrameOfStackJumpAndBranchInstructions : Prop :=
  ∀ (i : Instr) (s t : State), i.writesPc = true ∨ i.usesStack = true ∨ i = .nop → exec i s = .next t →
    (∀ r, i.destReg s.cfg ≠ some r → t.getReg r = s.getReg r) ∧
    (i.usesStack = false → t.stk = s.stk) ∧ (i.writesPc = false → t.pc = s.pc) ∧
    t.sr = s.sr ∧ t.mar = s.mar ∧ t.ir = s.ir ∧ t.phase = s.phase ∧ t.opc = s.opc ∧ t.op1 = s.op1 ∧ t.op2 = s.op2 ∧
    (∀ a : Nat, t.dm.read a = s.dm.read a) ∧ (∀ a, pmRead t a = pmRead s a) ∧ t.cfg = s.cfg

/-! ## Branches (44_branches.md) -/

/-- R170 to R176: each branch completes in every state, takes pc to its operand exactly when its condition on S and Z
holds, and changes nothing else. -/
def Obligations.BranchConditions : Prop :=
  ∀ (p : Byte) (s : State),
    let goTo := fun (taken : Bool) => (Host.Outcome.next { s with pc := if taken then p else s.pc } : Result)
    exec (.breq p) s = goTo s.sr.z ∧ exec (.brne p) s = goTo (!s.sr.z) ∧ exec (.brge p) s = goTo (!s.sr.s) ∧
    exec (.brgt p) s = goTo (!s.sr.s && !s.sr.z) ∧ exec (.brle p) s = goTo (s.sr.s || s.sr.z) ∧
    exec (.brlt p) s = goTo s.sr.s

/-- R177: after CP of a with b, BREQ and BRNE decide equality; the signed branches decide the signed order when the
compare did not overflow, and the opposite of it when it did. -/
def Obligations.SignedBranchesIgnoreOverflow : Prop :=
  ∀ (d f p : Byte) (s t : State) (r q : Fin 32), regIndex s.cfg d = some r → regIndex s.cfg f = some q →
    exec (.cp d f) s = .next t →
    let a := (s.getReg r).toInt
    let b := (s.getReg q).toInt
    let goTo := fun (taken : Bool) => (Host.Outcome.next { t with pc := if taken then p else t.pc } : Result)
    exec (.breq p) t = goTo (decide (a = b)) ∧ exec (.brne p) t = goTo (decide (a ≠ b)) ∧
    (-128 ≤ a - b ∧ a - b ≤ 127 →
      exec (.brlt p) t = goTo (decide (a < b)) ∧ exec (.brge p) t = goTo (decide (b ≤ a)) ∧
      exec (.brgt p) t = goTo (decide (b < a)) ∧ exec (.brle p) t = goTo (decide (a ≤ b))) ∧
    (¬(-128 ≤ a - b ∧ a - b ≤ 127) →
      exec (.brlt p) t = goTo (decide (b < a)) ∧ exec (.brge p) t = goTo (decide (a ≤ b)) ∧
      exec (.brgt p) t = goTo (decide (a < b)) ∧ exec (.brle p) t = goTo (decide (b ≤ a)))

/-! ## Shifts and NOP (45_shifts_nop_invalid.md) -/

/-- R180, R181: LSL doubles modulo 256 and LSR halves with zero fill, and nothing else changes, no flag among it
(decision D23, log entry 18). -/
def Obligations.ShiftsByOne : Prop :=
  ∀ (d : Byte) (s : State) (r : Fin 32), regIndex s.cfg d = some r →
    (∃ v : Byte, v.toNat = 2 * (s.getReg r).toNat % 256 ∧
      exec (.lsl d) s = .next { s with x := s.x.set r v }) ∧
    (∃ v : Byte, v.toNat = (s.getReg r).toNat / 2 ∧
      exec (.lsr d) s = .next { s with x := s.x.set r v })

/-- R182: NOP has no effect; every container with opcode byte 0x00 is NOP, whatever its operand fields; and the whole
cycle of one changes pc, mar, ir, opc, op1 and op2 only. Addresses past PM_SIZE and entries PROGRAM does not give
read as NOP. -/
def Obligations.NopHasNoEffect : Prop :=
  (∀ s : State, exec .nop s = .next s) ∧
  (∀ (m : OpcodeMap) (c : Container), m.valid = true → c.extractLsb 23 16 = 0x00#8 → decode m c = .instr .nop) ∧
  (∀ s : State, s.cfg.valid = true → s.phase = .fetch → (pmRead s s.pc).extractLsb 23 16 = 0x00#8 →
    runSteps 3 s = .next { s with
      ir := pmRead s s.pc
      mar := s.pc
      pc := s.pc + 0x01#8
      opc := 0x00#8
      op1 := (pmRead s s.pc).extractLsb 15 8
      op2 := (pmRead s s.pc).extractLsb 7 0 }) ∧
  (∀ (s : State) (a : Byte), s.cfg.pmSize ≤ a.toNat ∨ (∀ cell ∈ s.pm, cell.1 ≠ a.toNat) →
    pmRead s a = 0x00000000#32)

/-! ## Interfaces (50_interfaces.md) -/

/-- R191: at a clock edge `rst` comes first, then one step if enabled; otherwise all state holds (decision D1, log
entry 16). -/
def Obligations.ClockEdgePriority : Prop :=
  ∀ s : State, s.cfg.valid = true →
    (∀ e, clockEdge ⟨true, e⟩ s = .next (State.resetOf s.cfg)) ∧
    clockEdge ⟨false, true⟩ s = step s ∧ clockEdge ⟨false, false⟩ s = .next s

/-- R193, R194, R196: unless `sys_rst` is asserted, what the Data Memory port and the Stack port show is exactly what
the step does to the two stores; where it is asserted, the step is the full reset (decisions D2, D19, log entry 16). -/
def Obligations.PortsShowWhatTheStepDoes : Prop :=
  ∀ s t : State, step s = .next t →
    ((ports false s).sysRst = false →
      t.dm = (ports false s).dm.apply s.dm ∧ (ports false s).stk.apply s.cfg s.stk = some t.stk) ∧
    ((ports false s).sysRst = true → t = fullReset s)

/-- R198: a step uses at most one collaborator. -/
def Obligations.AtMostOneCollaboratorPerStep : Prop :=
  ∀ (rst : Bool) (s : State), (ports rst s).activity ≤ 1

/-- R195, R26: the ALU port is the single point of flag mutation. An instruction that calls the ALU commits the flags of
exactly the operands the port shows; one that does not leaves the status register. -/
def Obligations.AluPortIsTheOnlyFlagSource : Prop :=
  ∀ (i : Instr) (s t : State), exec i s = .next t →
    (∀ call, (executePorts i s).alu = some call → t.sr = s.sr.commit (alu call.op call.a call.b)) ∧
    ((executePorts i s).alu = none → t.sr = s.sr) ∧
    ((executePorts i s).alu.isSome = i.aluBacked)

/-- R25, R30, R60, R108, R197: what the observation port shows: every element of the state (R20), the packed status
register, the code of the CPU state register (0 Fetch, 1 Decode, 2 Execute, 3 invalid), and the two introspection values
of the Stack, whose default pointer is the depth. Nothing of the state is left out: two states under the same parameters
that show the same are the same (decisions D11, D13, D20, D28, log entries 9, 13, 17 and 24). -/
def Obligations.SnapshotShowsTheState : Prop :=
  (∀ s : State,
    (inspect s).pc = s.pc ∧ (inspect s).mar = s.mar ∧ (inspect s).ir = s.ir ∧ (inspect s).x = s.x ∧
    (inspect s).opc = s.opc ∧ (inspect s).op1 = s.op1 ∧ (inspect s).op2 = s.op2 ∧
    (inspect s).dm = s.dm ∧ (inspect s).stk = s.stk ∧ (inspect s).pm = s.pm ∧
    (inspect s).sr.getLsbD 5 = s.sr.i ∧ (inspect s).sr.getLsbD 4 = s.sr.s ∧ (inspect s).sr.getLsbD 3 = s.sr.n ∧
    (inspect s).sr.getLsbD 2 = s.sr.z ∧ (inspect s).sr.getLsbD 1 = s.sr.v ∧ (inspect s).sr.getLsbD 0 = s.sr.c ∧
    (s.phase = .fetch → (inspect s).state = 0#2) ∧ (s.phase = .decode → (inspect s).state = 1#2) ∧
    (s.phase = .execute → (inspect s).state = 2#2) ∧ (s.phase = .invalid → (inspect s).state = 3#2) ∧
    (s.cfg.spOf = [] → (inspect s).stackPointer = s.stk.length) ∧
    (∀ s' : State, s'.cfg = s.cfg → s'.stk.length = s.stk.length →
      (inspect s').stackPointer = (inspect s).stackPointer) ∧
    (∀ below v, s.stk = below ++ [v] → (inspect s).lastPushed = v) ∧
    (∀ v, s.stk = [] → s.cfg.lastPushedEmpty = some v → (inspect s).lastPushed = v)) ∧
  (∀ s s' : State, s.cfg = s'.cfg → inspect s = inspect s' → s = s')
end

