-- ==== Sys2Proof/Laws/Decode.lean ====
section
/-! SUPPORT. The laws of the opcode map and of the fields of a container (spec/30_encoding.md R81, R86). -/

namespace Sys2Proof

@[simp] theorem mem_all (m : Mnemonic) : m ∈ Mnemonic.all := by cases m <;> decide

theorem index_injective {a b : Mnemonic} (h : a.index = b.index) : a = b := by
  have key : ∀ m : Mnemonic, Mnemonic.all[m.index.val]? = some m := by intro m; cases m <;> rfl
  have ha := key a
  rw [h, key b] at ha
  exact (Option.some.inj ha).symm

theorem distinctBytes_nodup {l : List Byte} (h : distinctBytes l = true) : l.Nodup := by
  induction l with
  | nil => exact List.nodup_nil
  | cons b rest ih =>
    simp only [distinctBytes, Bool.and_eq_true, Bool.not_eq_true', List.contains_eq_mem, decide_eq_false_iff_not] at h
    exact List.nodup_cons.mpr ⟨h.1, ih h.2⟩

/-- A valid map is injective (R86). -/
theorem code_injective {m : OpcodeMap} (h : m.valid = true) {a b : Mnemonic} (e : m.code a = m.code b) : a = b := by
  simp only [OpcodeMap.valid, Bool.and_eq_true] at h
  apply index_injective
  have hn := distinctBytes_nodup h.1
  have e' : m.toList[a.index.val]'(by simp) = m.toList[b.index.val]'(by simp) := by
    simpa [OpcodeMap.code] using e
  exact Fin.ext ((List.getElem_inj hn).mp e')

theorem code_nop {m : OpcodeMap} (h : m.valid = true) : m.code .nop = 0x00#8 := by
  simp only [OpcodeMap.valid, Bool.and_eq_true, beq_iff_eq] at h
  exact h.2

/-- The mnemonic found is one whose opcode byte was asked for. -/
theorem lookup_some {m : OpcodeMap} {b : Byte} {mn : Mnemonic} (h : m.lookup b = some mn) : m.code mn = b := by
  simpa using List.find?_some h

theorem lookup_none {m : OpcodeMap} {b : Byte} : m.lookup b = none ↔ ∀ mn, m.code mn ≠ b := by
  simp [OpcodeMap.lookup, List.find?_eq_none]

/-- Under a valid map every mnemonic is found at its opcode byte (R86). -/
theorem lookup_code {m : OpcodeMap} (h : m.valid = true) (mn : Mnemonic) : m.lookup (m.code mn) = some mn := by
  cases hl : m.lookup (m.code mn) with
  | none => exact absurd rfl (lookup_none.mp hl mn)
  | some k => rw [code_injective h (lookup_some hl)]

/-! ## Fields of a container -/

/-- Bit `j` of a container put together from four bytes. -/
theorem getLsbD_bytes (t o a b : Byte) (j : Nat) :
    BitVec.getLsbD (w := 32) (t ++ o ++ a ++ b) j =
      if j < 8 then b.getLsbD j else if j < 16 then a.getLsbD (j - 8)
      else if j < 24 then o.getLsbD (j - 16) else t.getLsbD (j - 24) := by
  have h : BitVec.getLsbD (w := 8 + 8 + 8 + 8) (t ++ o ++ a ++ b) j =
      if j < 8 then b.getLsbD j else if j < 16 then a.getLsbD (j - 8)
      else if j < 24 then o.getLsbD (j - 16) else t.getLsbD (j - 24) := by
    simp only [BitVec.getLsbD_append]
    by_cases h1 : j < 8
    · simp [h1]
    by_cases h2 : j < 16
    · simp [h1, h2, show j - 8 < 8 by omega]
    by_cases h3 : j < 24
    · simp [h1, h2, h3, show ¬j - 8 < 8 by omega, show j - 8 - 8 = j - 16 by omega, show j - 16 < 8 by omega]
    · simp [h1, h2, h3, show ¬j - 8 < 8 by omega, show ¬j - 8 - 8 < 8 by omega, show j - 8 - 8 - 8 = j - 24 by omega]
  exact h
theorem opcodeField_append (t o a b : Byte) : opcodeField (t ++ o ++ a ++ b) = o := by
  ext i hi
  simp [opcodeField, getLsbD_bytes, show ¬16 + i < 8 by omega, show ¬16 + i < 16 by omega, show 16 + i < 24 by omega, hi]
theorem operand1Field_append (t o a b : Byte) : operand1Field (t ++ o ++ a ++ b) = a := by
  ext i hi
  simp [operand1Field, getLsbD_bytes, show 8 + i < 16 by omega, show ¬8 + i < 8 by omega, hi]
theorem operand2Field_append (t o a b : Byte) : operand2Field (t ++ o ++ a ++ b) = b := by
  ext i hi
  simp [operand2Field, getLsbD_bytes, hi]

/-- The four bytes of a container whose top byte is put to 0: what formats RI, RR, AR and RA use (R85). -/
theorem bytes_both_operands (c : Container) :
    (0x00#8 ++ opcodeField c ++ operand1Field c ++ operand2Field c : Container) = c &&& 0x00FFFFFF#32 := by
  apply BitVec.eq_of_getLsbD_eq
  intro j hj
  rw [getLsbD_bytes, BitVec.getLsbD_and]
  simp only [opcodeField, operand1Field, operand2Field, BitVec.getLsbD_extractLsb']
  interval_cases j <;> simp

/-- What formats R and P use (R85). -/
theorem bytes_first_operand (c : Container) :
    (0x00#8 ++ opcodeField c ++ operand1Field c ++ 0#8 : Container) = c &&& 0x00FFFF00#32 := by
  apply BitVec.eq_of_getLsbD_eq
  intro j hj
  rw [getLsbD_bytes, BitVec.getLsbD_and]
  simp only [opcodeField, operand1Field, BitVec.getLsbD_extractLsb']
  interval_cases j <;> simp

/-- What format N uses (R85). -/
theorem bytes_opcode_only (c : Container) :
    (0x00#8 ++ opcodeField c ++ 0#8 ++ 0#8 : Container) = c &&& 0x00FF0000#32 := by
  apply BitVec.eq_of_getLsbD_eq
  intro j hj
  rw [getLsbD_bytes, BitVec.getLsbD_and]
  simp only [opcodeField, BitVec.getLsbD_extractLsb']
  interval_cases j <;> simp

/-! ## Instructions and their fields -/

theorem mnemonic_ofFields (m : Mnemonic) (op1 op2 : Byte) : (Instr.ofFields m op1 op2).mnemonic = m := by
  cases m <;> rfl

theorem decode_of_code {m : OpcodeMap} (h : m.valid = true) (mn : Mnemonic) (op1 op2 : Byte) :
    decodeFields m (m.code mn) op1 op2 = .instr (Instr.ofFields mn op1 op2) := by
  simp [decodeFields, lookup_code h]

theorem decode_of_unassigned {m : OpcodeMap} {b : Byte} (h : ∀ mn, m.code mn ≠ b) (op1 op2 : Byte) :
    decodeFields m b op1 op2 = .rejected (.unrecognizedOpcode b) := by
  simp [decodeFields, lookup_none.mpr h]

end Sys2Proof
end

