-- ==== Sys2Proof/Laws/Memory.lean ====
section
/-! SUPPORT. The laws of the sparse stores: read after write, and that every operation keeps the canonical form
(spec/20_memory.md R53). -/

namespace Sys2Proof

@[simp] theorem read_nil {w : Nat} (a : Nat) : Memory.read ([] : Memory w) a = 0#w := rfl

/-- A unit that no listed cell holds reads as zero. -/
theorem read_unlisted {w : Nat} (m : Memory w) (a : Nat) (h : ∀ cell ∈ m, cell.1 ≠ a) : m.read a = 0#w := by
  induction m with
  | nil => rfl
  | cons cell rest ih =>
    have hne : ¬a = cell.1 := fun e => h cell (by simp) e.symm
    simpa [Memory.read, hne] using ih fun c hc => h c (by simp [hc])

/-- Below the first listed address everything reads as zero. -/
theorem read_below {w : Nat} {lo a : Nat} {m : Memory w} (h : Memory.wfFrom lo m = true) (ha : a < lo) :
    m.read a = 0#w := by
  induction m generalizing lo with
  | nil => rfl
  | cons cell rest ih =>
    simp only [Memory.wfFrom, Bool.and_eq_true, decide_eq_true_eq] at h
    have hne : ¬a = cell.1 := by omega
    simpa [Memory.read, hne] using ih h.2 (by omega)

/-- A write leaves every other unit alone. -/
theorem read_write_of_ne {w : Nat} (m : Memory w) {a b : Nat} (v : BitVec w) (h : b ≠ a) :
    (m.write a v).read b = m.read b := by
  induction m with
  | nil => simp only [Memory.write]; split <;> simp [Memory.read, h, Memory.unlisted]
  | cons cell rest ih =>
    simp only [Memory.write]
    split
    · split <;> simp [Memory.read, h]
    · split
      · rename_i e; subst e; split <;> simp [Memory.read, h]
      · simp [Memory.read, ih]

/-- A read after a write to the same address gives the unit written. -/
theorem read_write_self {w : Nat} {m : Memory w} (h : m.wf = true) (a : Nat) (v : BitVec w) :
    (m.write a v).read a = v := by
  unfold Memory.wf at h
  generalize 0 = lo at h
  induction m generalizing lo with
  | nil => simp only [Memory.write]; split <;> simp_all [Memory.read, Memory.unlisted]
  | cons cell rest ih =>
    simp only [Memory.wfFrom, Bool.and_eq_true, decide_eq_true_eq] at h
    simp only [Memory.write]
    split
    · rename_i hlt
      split
      · rename_i hv
        have hne : ¬a = cell.1 := by omega
        simp [Memory.read, hne, hv, Memory.unlisted, read_below h.2 (show a < cell.1 + 1 by omega)]
      · simp [Memory.read]
    · split
      · rename_i e
        split
        · rename_i hv
          simp [hv, Memory.unlisted, read_below h.2 (show a < cell.1 + 1 by omega)]
        · simp [Memory.read]
      · rename_i hne
        simpa [Memory.read, hne] using ih _ h.2

theorem wfFrom_weaken {w : Nat} {lo lo' : Nat} {m : Memory w} (h : Memory.wfFrom lo m = true) (hl : lo' ≤ lo) :
    Memory.wfFrom lo' m = true := by
  cases m with
  | nil => rfl
  | cons cell rest =>
    simp only [Memory.wfFrom, Bool.and_eq_true, decide_eq_true_eq] at h ⊢
    exact ⟨⟨by omega, h.1.2⟩, h.2⟩

theorem wfFrom_write {w : Nat} {lo : Nat} {m : Memory w} (h : Memory.wfFrom lo m = true) {a : Nat} (ha : lo ≤ a)
    (v : BitVec w) : Memory.wfFrom lo (m.write a v) = true := by
  induction m generalizing lo with
  | nil => simp only [Memory.write]; split <;> simp_all [Memory.wfFrom]
  | cons cell rest ih =>
    have h0 := h
    simp only [Memory.wfFrom, Bool.and_eq_true, decide_eq_true_eq] at h
    obtain ⟨⟨hlo, hv0⟩, hrest⟩ := h
    simp only [Memory.write]
    split
    · rename_i hlt
      split
      · exact h0
      · rename_i hv
        simp only [Memory.wfFrom, Bool.and_eq_true, decide_eq_true_eq]
        exact ⟨⟨ha, by simp [hv]⟩, ⟨by omega, hv0⟩, hrest⟩
    · split
      · rename_i e
        split
        · exact wfFrom_weaken hrest (by omega)
        · rename_i hv
          simp only [Memory.wfFrom, Bool.and_eq_true, decide_eq_true_eq]
          exact ⟨⟨ha, by simp [hv]⟩, by rw [e]; exact hrest⟩
      · simp only [Memory.wfFrom, Bool.and_eq_true, decide_eq_true_eq]
        exact ⟨⟨hlo, hv0⟩, ih hrest (by omega)⟩

/-- A write keeps the canonical form. -/
theorem wf_write {w : Nat} {m : Memory w} (h : m.wf = true) (a : Nat) (v : BitVec w) : (m.write a v).wf = true :=
  wfFrom_write h (Nat.zero_le a) v

/-- A cell listed after a write is the one written or was listed before. -/
theorem mem_write {w : Nat} {m : Memory w} {a : Nat} {v : BitVec w} {cell : Nat × BitVec w}
    (h : cell ∈ m.write a v) : cell = (a, v) ∨ cell ∈ m := by
  induction m with
  | nil => simp only [Memory.write] at h; split at h <;> simp_all
  | cons first rest ih =>
    simp only [Memory.write] at h
    split at h
    · split at h <;> simp_all
    · split at h
      · split at h
        · exact .inr (List.mem_cons_of_mem _ h)
        · rcases List.mem_cons.mp h with h | h
          · exact .inl h
          · exact .inr (List.mem_cons_of_mem _ h)
      · rcases List.mem_cons.mp h with h | h
        · exact .inr (by simp [h])
        · exact (ih h).imp_right (List.mem_cons_of_mem _)

theorem within_iff {w : Nat} {m : Memory w} {n : Nat} : m.within n = true ↔ ∀ cell ∈ m, cell.1 < n := by
  simp [Memory.within]

/-- A write within the bound keeps the bound. -/
theorem within_write {w : Nat} {m : Memory w} {n : Nat} (h : m.within n = true) {a : Nat} (ha : a < n)
    (v : BitVec w) : (m.write a v).within n = true := by
  rw [within_iff] at h ⊢
  intro cell hc
  rcases mem_write hc with rfl | hc
  · exact ha
  · exact h cell hc

/-- Loading a list gives a store in canonical form. -/
theorem wf_ofList {w : Nat} (l : List (BitVec w)) : (Memory.ofList l).wf = true := by
  have key : ∀ (a lo : Nat), lo ≤ a → Memory.wfFrom lo (Memory.ofListFrom a l) = true := by
    induction l with
    | nil => intros; rfl
    | cons v rest ih =>
      intro a lo h
      simp only [Memory.ofListFrom]
      split
      · exact ih _ _ (by omega)
      · rename_i hv
        simp only [Memory.wfFrom, Bool.and_eq_true, decide_eq_true_eq]
        exact ⟨⟨h, by simp [hv]⟩, ih _ _ (Nat.le_refl _)⟩
  exact key 0 0 (Nat.le_refl _)

end Sys2Proof
end

