-- ==== Sys2Proof/Laws/State.lean ====
section
/-! SUPPORT. One lemma per field per update of the state, so that no later proof unfolds a record update, and the reading
of a register after an update. -/

namespace Sys2Proof.Machine

/-! ## `State.setReg` -/

@[simp] theorem setReg_cfg (s : State) (r : Fin 32) (v : Byte) : (s.setReg r v).cfg = s.cfg := rfl
@[simp] theorem setReg_x (s : State) (r : Fin 32) (v : Byte) : (s.setReg r v).x = s.x.set r.val v r.isLt := rfl
@[simp] theorem setReg_pc (s : State) (r : Fin 32) (v : Byte) : (s.setReg r v).pc = s.pc := rfl
@[simp] theorem setReg_sr (s : State) (r : Fin 32) (v : Byte) : (s.setReg r v).sr = s.sr := rfl
@[simp] theorem setReg_mar (s : State) (r : Fin 32) (v : Byte) : (s.setReg r v).mar = s.mar := rfl
@[simp] theorem setReg_ir (s : State) (r : Fin 32) (v : Byte) : (s.setReg r v).ir = s.ir := rfl
@[simp] theorem setReg_phase (s : State) (r : Fin 32) (v : Byte) : (s.setReg r v).phase = s.phase := rfl
@[simp] theorem setReg_opc (s : State) (r : Fin 32) (v : Byte) : (s.setReg r v).opc = s.opc := rfl
@[simp] theorem setReg_op1 (s : State) (r : Fin 32) (v : Byte) : (s.setReg r v).op1 = s.op1 := rfl
@[simp] theorem setReg_op2 (s : State) (r : Fin 32) (v : Byte) : (s.setReg r v).op2 = s.op2 := rfl
@[simp] theorem setReg_dm (s : State) (r : Fin 32) (v : Byte) : (s.setReg r v).dm = s.dm := rfl
@[simp] theorem setReg_stk (s : State) (r : Fin 32) (v : Byte) : (s.setReg r v).stk = s.stk := rfl
@[simp] theorem setReg_pm (s : State) (r : Fin 32) (v : Byte) : (s.setReg r v).pm = s.pm := rfl

/-! ## `State.setPc` -/

@[simp] theorem setPc_cfg (s : State) (t : Byte) : (s.setPc t).cfg = s.cfg := rfl
@[simp] theorem setPc_x (s : State) (t : Byte) : (s.setPc t).x = s.x := rfl
@[simp] theorem setPc_pc (s : State) (t : Byte) : (s.setPc t).pc = t := rfl
@[simp] theorem setPc_sr (s : State) (t : Byte) : (s.setPc t).sr = s.sr := rfl
@[simp] theorem setPc_mar (s : State) (t : Byte) : (s.setPc t).mar = s.mar := rfl
@[simp] theorem setPc_ir (s : State) (t : Byte) : (s.setPc t).ir = s.ir := rfl
@[simp] theorem setPc_phase (s : State) (t : Byte) : (s.setPc t).phase = s.phase := rfl
@[simp] theorem setPc_opc (s : State) (t : Byte) : (s.setPc t).opc = s.opc := rfl
@[simp] theorem setPc_op1 (s : State) (t : Byte) : (s.setPc t).op1 = s.op1 := rfl
@[simp] theorem setPc_op2 (s : State) (t : Byte) : (s.setPc t).op2 = s.op2 := rfl
@[simp] theorem setPc_dm (s : State) (t : Byte) : (s.setPc t).dm = s.dm := rfl
@[simp] theorem setPc_stk (s : State) (t : Byte) : (s.setPc t).stk = s.stk := rfl
@[simp] theorem setPc_pm (s : State) (t : Byte) : (s.setPc t).pm = s.pm := rfl

/-! ## `State.setSr` -/

@[simp] theorem setSr_cfg (s : State) (f : Status) : (s.setSr f).cfg = s.cfg := rfl
@[simp] theorem setSr_x (s : State) (f : Status) : (s.setSr f).x = s.x := rfl
@[simp] theorem setSr_pc (s : State) (f : Status) : (s.setSr f).pc = s.pc := rfl
@[simp] theorem setSr_sr (s : State) (f : Status) : (s.setSr f).sr = f := rfl
@[simp] theorem setSr_mar (s : State) (f : Status) : (s.setSr f).mar = s.mar := rfl
@[simp] theorem setSr_ir (s : State) (f : Status) : (s.setSr f).ir = s.ir := rfl
@[simp] theorem setSr_phase (s : State) (f : Status) : (s.setSr f).phase = s.phase := rfl
@[simp] theorem setSr_opc (s : State) (f : Status) : (s.setSr f).opc = s.opc := rfl
@[simp] theorem setSr_op1 (s : State) (f : Status) : (s.setSr f).op1 = s.op1 := rfl
@[simp] theorem setSr_op2 (s : State) (f : Status) : (s.setSr f).op2 = s.op2 := rfl
@[simp] theorem setSr_dm (s : State) (f : Status) : (s.setSr f).dm = s.dm := rfl
@[simp] theorem setSr_stk (s : State) (f : Status) : (s.setSr f).stk = s.stk := rfl
@[simp] theorem setSr_pm (s : State) (f : Status) : (s.setSr f).pm = s.pm := rfl

/-! ## `memWrite` -/

@[simp] theorem memWrite_cfg (s : State) (a : DataAddr) (v : Byte) : (memWrite s a v).cfg = s.cfg := rfl
@[simp] theorem memWrite_x (s : State) (a : DataAddr) (v : Byte) : (memWrite s a v).x = s.x := rfl
@[simp] theorem memWrite_pc (s : State) (a : DataAddr) (v : Byte) : (memWrite s a v).pc = s.pc := rfl
@[simp] theorem memWrite_sr (s : State) (a : DataAddr) (v : Byte) : (memWrite s a v).sr = s.sr := rfl
@[simp] theorem memWrite_mar (s : State) (a : DataAddr) (v : Byte) : (memWrite s a v).mar = s.mar := rfl
@[simp] theorem memWrite_ir (s : State) (a : DataAddr) (v : Byte) : (memWrite s a v).ir = s.ir := rfl
@[simp] theorem memWrite_phase (s : State) (a : DataAddr) (v : Byte) : (memWrite s a v).phase = s.phase := rfl
@[simp] theorem memWrite_opc (s : State) (a : DataAddr) (v : Byte) : (memWrite s a v).opc = s.opc := rfl
@[simp] theorem memWrite_op1 (s : State) (a : DataAddr) (v : Byte) : (memWrite s a v).op1 = s.op1 := rfl
@[simp] theorem memWrite_op2 (s : State) (a : DataAddr) (v : Byte) : (memWrite s a v).op2 = s.op2 := rfl
@[simp] theorem memWrite_dm (s : State) (a : DataAddr) (v : Byte) : (memWrite s a v).dm = s.dm.write a.toNat v := rfl
@[simp] theorem memWrite_stk (s : State) (a : DataAddr) (v : Byte) : (memWrite s a v).stk = s.stk := rfl
@[simp] theorem memWrite_pm (s : State) (a : DataAddr) (v : Byte) : (memWrite s a v).pm = s.pm := rfl

/-! ## `commitFlags` -/

@[simp] theorem commitFlags_cfg (s : State) (o : AluOut) : (commitFlags s o).cfg = s.cfg := rfl
@[simp] theorem commitFlags_x (s : State) (o : AluOut) : (commitFlags s o).x = s.x := rfl
@[simp] theorem commitFlags_pc (s : State) (o : AluOut) : (commitFlags s o).pc = s.pc := rfl
@[simp] theorem commitFlags_sr (s : State) (o : AluOut) : (commitFlags s o).sr = s.sr.commit o := rfl
@[simp] theorem commitFlags_mar (s : State) (o : AluOut) : (commitFlags s o).mar = s.mar := rfl
@[simp] theorem commitFlags_ir (s : State) (o : AluOut) : (commitFlags s o).ir = s.ir := rfl
@[simp] theorem commitFlags_phase (s : State) (o : AluOut) : (commitFlags s o).phase = s.phase := rfl
@[simp] theorem commitFlags_opc (s : State) (o : AluOut) : (commitFlags s o).opc = s.opc := rfl
@[simp] theorem commitFlags_op1 (s : State) (o : AluOut) : (commitFlags s o).op1 = s.op1 := rfl
@[simp] theorem commitFlags_op2 (s : State) (o : AluOut) : (commitFlags s o).op2 = s.op2 := rfl
@[simp] theorem commitFlags_dm (s : State) (o : AluOut) : (commitFlags s o).dm = s.dm := rfl
@[simp] theorem commitFlags_stk (s : State) (o : AluOut) : (commitFlags s o).stk = s.stk := rfl
@[simp] theorem commitFlags_pm (s : State) (o : AluOut) : (commitFlags s o).pm = s.pm := rfl

/-! ## `toFetch` -/

@[simp] theorem toFetch_cfg (s : State) : (toFetch s).cfg = s.cfg := rfl
@[simp] theorem toFetch_x (s : State) : (toFetch s).x = s.x := rfl
@[simp] theorem toFetch_pc (s : State) : (toFetch s).pc = s.pc := rfl
@[simp] theorem toFetch_sr (s : State) : (toFetch s).sr = s.sr := rfl
@[simp] theorem toFetch_mar (s : State) : (toFetch s).mar = s.mar := rfl
@[simp] theorem toFetch_ir (s : State) : (toFetch s).ir = s.ir := rfl
@[simp] theorem toFetch_phase (s : State) : (toFetch s).phase = .fetch := rfl
@[simp] theorem toFetch_opc (s : State) : (toFetch s).opc = s.opc := rfl
@[simp] theorem toFetch_op1 (s : State) : (toFetch s).op1 = s.op1 := rfl
@[simp] theorem toFetch_op2 (s : State) : (toFetch s).op2 = s.op2 := rfl
@[simp] theorem toFetch_dm (s : State) : (toFetch s).dm = s.dm := rfl
@[simp] theorem toFetch_stk (s : State) : (toFetch s).stk = s.stk := rfl
@[simp] theorem toFetch_pm (s : State) : (toFetch s).pm = s.pm := rfl

/-! ## `doFetch` -/

@[simp] theorem doFetch_cfg (s : State) : (doFetch s).cfg = s.cfg := rfl
@[simp] theorem doFetch_x (s : State) : (doFetch s).x = s.x := rfl
@[simp] theorem doFetch_pc (s : State) : (doFetch s).pc = s.pc + 0x01#8 := rfl
@[simp] theorem doFetch_sr (s : State) : (doFetch s).sr = s.sr := rfl
@[simp] theorem doFetch_mar (s : State) : (doFetch s).mar = s.pc := rfl
@[simp] theorem doFetch_ir (s : State) : (doFetch s).ir = pmRead s s.pc := rfl
@[simp] theorem doFetch_phase (s : State) : (doFetch s).phase = .decode := rfl
@[simp] theorem doFetch_opc (s : State) : (doFetch s).opc = s.opc := rfl
@[simp] theorem doFetch_op1 (s : State) : (doFetch s).op1 = s.op1 := rfl
@[simp] theorem doFetch_op2 (s : State) : (doFetch s).op2 = s.op2 := rfl
@[simp] theorem doFetch_dm (s : State) : (doFetch s).dm = s.dm := rfl
@[simp] theorem doFetch_stk (s : State) : (doFetch s).stk = s.stk := rfl
@[simp] theorem doFetch_pm (s : State) : (doFetch s).pm = s.pm := rfl

/-! ## `doDecode` -/

@[simp] theorem doDecode_cfg (s : State) : (doDecode s).cfg = s.cfg := rfl
@[simp] theorem doDecode_x (s : State) : (doDecode s).x = s.x := rfl
@[simp] theorem doDecode_pc (s : State) : (doDecode s).pc = s.pc := rfl
@[simp] theorem doDecode_sr (s : State) : (doDecode s).sr = s.sr := rfl
@[simp] theorem doDecode_mar (s : State) : (doDecode s).mar = s.mar := rfl
@[simp] theorem doDecode_ir (s : State) : (doDecode s).ir = s.ir := rfl
@[simp] theorem doDecode_phase (s : State) : (doDecode s).phase = .execute := rfl
@[simp] theorem doDecode_opc (s : State) : (doDecode s).opc = opcodeField s.ir := rfl
@[simp] theorem doDecode_op1 (s : State) : (doDecode s).op1 = operand1Field s.ir := rfl
@[simp] theorem doDecode_op2 (s : State) : (doDecode s).op2 = operand2Field s.ir := rfl
@[simp] theorem doDecode_dm (s : State) : (doDecode s).dm = s.dm := rfl
@[simp] theorem doDecode_stk (s : State) : (doDecode s).stk = s.stk := rfl
@[simp] theorem doDecode_pm (s : State) : (doDecode s).pm = s.pm := rfl

/-! ## `fullReset` -/

@[simp] theorem fullReset_cfg (s : State) : (fullReset s).cfg = s.cfg := rfl
@[simp] theorem fullReset_x (s : State) : (fullReset s).x = Vector.replicate 32 0x00#8 := rfl
@[simp] theorem fullReset_pc (s : State) : (fullReset s).pc = 0x00#8 := rfl
@[simp] theorem fullReset_sr (s : State) : (fullReset s).sr = Status.cleared := rfl
@[simp] theorem fullReset_mar (s : State) : (fullReset s).mar = 0x00#8 := rfl
@[simp] theorem fullReset_ir (s : State) : (fullReset s).ir = 0x00000000#32 := rfl
@[simp] theorem fullReset_phase (s : State) : (fullReset s).phase = .fetch := rfl
@[simp] theorem fullReset_opc (s : State) : (fullReset s).opc = 0x00#8 := rfl
@[simp] theorem fullReset_op1 (s : State) : (fullReset s).op1 = 0x00#8 := rfl
@[simp] theorem fullReset_op2 (s : State) : (fullReset s).op2 = 0x00#8 := rfl
@[simp] theorem fullReset_dm (s : State) : (fullReset s).dm = s.cfg.dmInit := rfl
@[simp] theorem fullReset_stk (s : State) : (fullReset s).stk = [] := rfl
@[simp] theorem fullReset_pm (s : State) : (fullReset s).pm = s.cfg.program := rfl

/-! ## Registers -/

theorem getReg_setReg_self (s : State) (r : Fin 32) (v : Byte) : (s.setReg r v).getReg r = v := by
  simp [State.getReg]

theorem getReg_setReg_of_ne (s : State) {r q : Fin 32} (v : Byte) (h : r ≠ q) : (s.setReg r v).getReg q = s.getReg q := by
  have : r.val ≠ q.val := fun e => h (Fin.ext e)
  simp [State.getReg, this]

/-- Reading a register looks at `x` only. -/
theorem getReg_congr {s t : State} (h : t.x = s.x) (r : Fin 32) : t.getReg r = s.getReg r := by
  simp [State.getReg, h]

@[simp] theorem getReg_fullReset (s : State) (r : Fin 32) : (fullReset s).getReg r = 0x00#8 := by
  simp [State.getReg]

/-! ## Status -/

@[simp] theorem commit_i (f : Status) (o : AluOut) : (f.commit o).i = f.i := rfl
@[simp] theorem commit_s (f : Status) (o : AluOut) : (f.commit o).s = o.s := rfl
@[simp] theorem commit_n (f : Status) (o : AluOut) : (f.commit o).n = o.n := rfl
@[simp] theorem commit_z (f : Status) (o : AluOut) : (f.commit o).z = o.z := rfl
@[simp] theorem commit_v (f : Status) (o : AluOut) : (f.commit o).v = o.v := rfl
@[simp] theorem commit_c (f : Status) (o : AluOut) : (f.commit o).c = o.c := rfl

/-- Reading Program Memory looks at `pm` and the parameters only. -/
theorem pmRead_congr {s t : State} (hp : t.pm = s.pm) (hc : t.cfg = s.cfg) (a : Byte) : pmRead t a = pmRead s a := by
  simp [pmRead, hp, hc]

end Sys2Proof.Machine
end

