-- ==== Sys2Proof/Laws/Ops.lean ====
section
/-! SUPPORT. One lemma per shared operation that says once what it can do, for the provers to cite instead of unfolding
the operation. -/

namespace Sys2Proof.Machine

/-! ## Sequencing -/

@[simp] theorem andThen_next (s : State) (k : State → Result) : andThen (.next s) k = k s := rfl
@[simp] theorem andThen_fault (f : Fault) (k : State → Result) : andThen (.fault f) k = .fault f := rfl
@[simp] theorem andThen_refused (r : Refusal) (k : State → Result) : andThen (.refused r) k = .refused r := rfl

theorem andThen_assoc (o : Result) (k l : State → Result) :
    andThen (andThen o k) l = andThen o fun s => andThen (k s) l := by
  cases o <;> rfl

theorem andThen_eq_next {o : Result} {k : State → Result} {t : State} (h : andThen o k = .next t) :
    ∃ s, o = .next s ∧ k s = .next t := by
  cases o with
  | next s => exact ⟨s, rfl, h⟩
  | fault f => cases h
  | refused r => cases h

/-! ## Register operands (30_encoding.md R90) -/

theorem regIndex_of_lt (cfg : Config) {f : Byte} (h : f.toNat < 32) : regIndex cfg f = some ⟨f.toNat, h⟩ := by
  simp [regIndex, h]

theorem regIndex_of_le_fault {cfg : Config} {f : Byte} (h : 32 ≤ f.toNat) (hc : cfg.regOor = .fault) :
    regIndex cfg f = none := by
  simp [regIndex, Nat.not_lt.mpr h, hc]

theorem regIndex_of_le_mask5 {cfg : Config} {f : Byte} (h : 32 ≤ f.toNat) (hc : cfg.regOor = .mask5) :
    regIndex cfg f = some (f.extractLsb' 0 5).toFin := by
  simp [regIndex, Nat.not_lt.mpr h, hc]

theorem withReg_some {s : State} {f : Byte} {r : Fin 32} (h : regIndex s.cfg f = some r) (k : Fin 32 → Result) :
    withReg s f k = k r := by
  simp [withReg, h]

theorem withReg_none {s : State} {f : Byte} (h : regIndex s.cfg f = none) (k : Fin 32 → Result) :
    withReg s f k = .fault .regIndexOutOfRange := by
  simp [withReg, h, raise]

theorem regIndex_eq_none {cfg : Config} {f : Byte} (h : regIndex cfg f = none) :
    cfg.regOor = .fault ∧ regFieldOk f = false := by
  unfold regIndex at h
  split at h
  · cases h
  · split at h
    · exact ⟨‹_›, by simpa [regFieldOk] using ‹¬f.toNat < 32›⟩
    · cases h

theorem withReg_eq_fault {s : State} {f : Byte} {k : Fin 32 → Result} {e : Fault} (h : withReg s f k = .fault e) :
    (e = .regIndexOutOfRange ∧ s.cfg.regOor = .fault ∧ regFieldOk f = false) ∨
    ∃ r, regIndex s.cfg f = some r ∧ k r = .fault e := by
  unfold withReg at h
  split at h
  · exact .inr ⟨_, ‹_›, h⟩
  · exact .inl ⟨by cases h; rfl, regIndex_eq_none ‹_›⟩

theorem withReg_eq_next {s t : State} {f : Byte} {k : Fin 32 → Result} (h : withReg s f k = .next t) :
    ∃ r, regIndex s.cfg f = some r ∧ k r = .next t := by
  unfold withReg at h
  split at h
  · exact ⟨_, ‹_›, h⟩
  · cases h

/-! ## Data addresses (20_memory.md R54) -/

@[simp] theorem bank0_toNat (a : Byte) : (bank0 a).toNat = a.toNat := by
  have := a.isLt
  simp only [bank0, BitVec.toNat_setWidth]; omega

@[simp] theorem bank1_toNat (a : Byte) : (bank1 a).toNat = a.toNat + 256 := by
  have := a.isLt
  simp only [bank1, BitVec.toNat_add, BitVec.toNat_setWidth, BitVec.toNat_ofNat]; omega

/-! ## Stack (20_memory.md R58, R59) -/

theorem fullPush_length (f : FullPush) (stk : List Byte) (v : Byte) : (fullPush f stk v).length ≤ stk.length := by
  cases f <;> simp only [fullPush]
  case drop => exact Nat.le_refl _
  case dropOldest => simp
  case replaceTop | restart =>
    cases stk <;> simp

theorem pushContents_of_lt {cfg : Config} {stk : List Byte} (v : Byte) (h : stk.length < cfg.stackDepth) :
    pushContents cfg stk v = some (stk ++ [v]) := by
  simp [pushContents, h]

theorem pushContents_of_le_fault {cfg : Config} {stk : List Byte} (v : Byte) (h : cfg.stackDepth ≤ stk.length)
    (hf : cfg.stackFaults = .fault) : pushContents cfg stk v = none := by
  simp [pushContents, Nat.not_lt.mpr h, hf]

theorem pushContents_of_le_supplied {cfg : Config} {stk : List Byte} (v : Byte) (h : cfg.stackDepth ≤ stk.length)
    {b : StackMisuse} (hf : cfg.stackFaults = .supplied b) :
    pushContents cfg stk v = some (fullPush b.fullPush stk v) := by
  simp [pushContents, Nat.not_lt.mpr h, hf]

theorem pushContents_eq_none {cfg : Config} {stk : List Byte} {v : Byte} (h : pushContents cfg stk v = none) :
    cfg.stackFaults = .fault ∧ cfg.stackDepth ≤ stk.length := by
  unfold pushContents at h
  split at h
  · cases h
  · split at h
    · exact ⟨‹_›, by omega⟩
    · cases h

/-- No push makes the Stack deeper than STACK_DEPTH (20_memory.md R57). -/
theorem pushContents_length {cfg : Config} {stk c : List Byte} {v : Byte} (h : pushContents cfg stk v = some c)
    (hd : stk.length ≤ cfg.stackDepth) : c.length ≤ cfg.stackDepth := by
  unfold pushContents at h
  split at h
  · cases h; simpa using ‹_›
  · split at h
    · cases h
    · cases h; exact Nat.le_trans (fullPush_length _ _ _) hd

theorem popContents_of_eq (cfg : Config) (below : List Byte) (v : Byte) :
    popContents cfg (below ++ [v]) = some (v, below) := by
  simp [popContents]

theorem popContents_nil_fault {cfg : Config} (hf : cfg.stackFaults = .fault) : popContents cfg [] = none := by
  simp [popContents, hf]

theorem popContents_nil_supplied {cfg : Config} {b : StackMisuse} (hf : cfg.stackFaults = .supplied b) :
    popContents cfg [] = some (b.poppedByte, b.poppedStack) := by
  simp [popContents, hf]

theorem popContents_eq_none {cfg : Config} {stk : List Byte} (h : popContents cfg stk = none) :
    cfg.stackFaults = .fault ∧ stk = [] := by
  rcases List.eq_nil_or_concat stk with rfl | ⟨below, v, rfl⟩
  · refine ⟨?_, rfl⟩
    cases hf : cfg.stackFaults with
    | fault => rfl
    | supplied b => rw [popContents_nil_supplied hf] at h; cases h
  · rw [List.concat_eq_append, popContents_of_eq] at h; cases h

/-- No pop makes the Stack deeper than STACK_DEPTH (20_memory.md R57). -/
theorem popContents_length {cfg : Config} {stk c : List Byte} {v : Byte} (h : popContents cfg stk = some (v, c))
    (hv : cfg.stackFaults.fits cfg.stackDepth = true) (hd : stk.length ≤ cfg.stackDepth) :
    c.length ≤ cfg.stackDepth := by
  rcases List.eq_nil_or_concat stk with rfl | ⟨below, w, rfl⟩
  · cases hf : cfg.stackFaults with
    | fault => rw [popContents_nil_fault hf] at h; cases h
    | supplied b =>
      rw [popContents_nil_supplied hf] at h
      cases h
      simpa [StackFaults.fits, hf] using hv
  · rw [List.concat_eq_append] at h hd
    rw [popContents_of_eq] at h
    cases h
    rw [List.length_append] at hd
    omega

theorem push_of_some {s : State} {v : Byte} {c : List Byte} (h : pushContents s.cfg s.stk v = some c) :
    push s v = .next { s with stk := c } := by
  simp [push, h]

theorem push_of_none {s : State} {v : Byte} (h : pushContents s.cfg s.stk v = none) :
    push s v = .fault .stackOverflow := by
  simp [push, h, raise]

theorem push_of_lt {s : State} (v : Byte) (h : s.stk.length < s.cfg.stackDepth) :
    push s v = .next { s with stk := s.stk ++ [v] } := push_of_some (pushContents_of_lt v h)

theorem push_of_le {s : State} (v : Byte) (h : s.cfg.stackDepth ≤ s.stk.length) (hf : s.cfg.stackFaults = .fault) :
    push s v = .fault .stackOverflow := push_of_none (pushContents_of_le_fault v h hf)

theorem push_eq_next {s t : State} {v : Byte} (h : push s v = .next t) :
    ∃ c, pushContents s.cfg s.stk v = some c ∧ t = { s with stk := c } := by
  unfold push at h
  split at h
  · cases h; exact ⟨_, ‹_›, rfl⟩
  · cases h

theorem push_eq_fault {s : State} {v : Byte} {f : Fault} (h : push s v = .fault f) :
    f = .stackOverflow ∧ s.cfg.stackFaults = .fault ∧ s.cfg.stackDepth ≤ s.stk.length := by
  unfold push at h
  split at h
  · cases h
  · cases h; exact ⟨rfl, pushContents_eq_none ‹_›⟩

theorem pop_of_some {s : State} {v : Byte} {c : List Byte} (h : popContents s.cfg s.stk = some (v, c))
    (k : Byte → State → Result) : pop s k = k v { s with stk := c } := by
  simp [pop, h]

theorem pop_of_none {s : State} (h : popContents s.cfg s.stk = none) (k : Byte → State → Result) :
    pop s k = .fault .stackUnderflow := by
  simp [pop, h, raise]

theorem pop_of_eq {s : State} {below : List Byte} {v : Byte} (h : s.stk = below ++ [v]) (k : Byte → State → Result) :
    pop s k = k v { s with stk := below } := pop_of_some (by rw [h, popContents_of_eq]) k

theorem pop_of_nil {s : State} (h : s.stk = []) (hf : s.cfg.stackFaults = .fault) (k : Byte → State → Result) :
    pop s k = .fault .stackUnderflow := pop_of_none (by rw [h, popContents_nil_fault hf]) k

theorem pop_eq_next {s t : State} {k : Byte → State → Result} (h : pop s k = .next t) :
    ∃ v c, popContents s.cfg s.stk = some (v, c) ∧ k v { s with stk := c } = .next t := by
  unfold pop at h
  split at h
  · exact ⟨_, _, ‹_›, h⟩
  · cases h

theorem pop_eq_fault {s : State} {k : Byte → State → Result} {f : Fault} (h : pop s k = .fault f)
    (hk : ∀ v t, k v t ≠ .fault f) : f = .stackUnderflow ∧ s.cfg.stackFaults = .fault ∧ s.stk = [] := by
  unfold pop at h
  split at h
  · exact absurd h (hk _ _)
  · cases h; exact ⟨rfl, popContents_eq_none ‹_›⟩

/-! ## The ALU operations (42_alu.md R137) -/

theorem aluWrite_eq_next {s t : State} {op : AluOp} {d : Fin 32} {b : Byte} (h : aluWrite s op d b = .next t) :
    t = commitFlags (s.setReg d (alu op (s.getReg d) b).result) (alu op (s.getReg d) b) := by
  cases h; rfl

theorem aluCompare_eq_next {s t : State} {d : Fin 32} {b : Byte} (h : aluCompare s d b = .next t) :
    t = commitFlags s (alu .sub (s.getReg d) b) := by
  cases h; rfl

theorem branchIf_eq_next {c : Bool} {p : Byte} {s t : State} (h : branchIf c p s = .next t) :
    t = { s with pc := if c then p else s.pc } := by
  cases h; cases c <;> rfl

/-! ## The phases (40_control_fsm.md R100) -/

theorem stepState_of_valid {s : State} (h : s.cfg.valid = true) : stepState s = phaseAction s := by
  simp [stepState, underValidConfig, h]

theorem stepState_of_invalid {s : State} (h : s.cfg.valid = false) :
    stepState s = .refused .invalidConfiguration := by
  simp [stepState, underValidConfig, h]

/-- What one step can do: the four phases, under a configuration within its bounds. -/
theorem stepState_eq_next {s t : State} (h : stepState s = .next t) :
    s.cfg.valid = true ∧
    ((s.phase = .fetch ∧ t = doFetch s) ∨ (s.phase = .decode ∧ t = doDecode s) ∨
     (s.phase = .invalid ∧ t = fullReset s) ∨
     (s.phase = .execute ∧ ∃ e, currentInstr s = .rejected e ∧ t = fullReset s) ∨
     (s.phase = .execute ∧ ∃ i u, currentInstr s = .instr i ∧ exec i s = .next u ∧ t = toFetch u)) := by
  cases hv : s.cfg.valid with
  | false => rw [stepState_of_invalid hv] at h; cases h
  | true =>
    rw [stepState_of_valid hv] at h
    refine ⟨rfl, ?_⟩
    unfold phaseAction at h
    split at h
    · cases h; exact .inl ⟨‹_›, rfl⟩
    · cases h; exact .inr (.inl ⟨‹_›, rfl⟩)
    · unfold doExecute at h
      split at h
      · obtain ⟨u, hu, ht⟩ := andThen_eq_next h
        cases ht
        exact .inr (.inr (.inr (.inr ⟨‹_›, _, u, ‹_›, hu, rfl⟩)))
      · cases h; exact .inr (.inr (.inr (.inl ⟨‹_›, _, ‹_›, rfl⟩)))
    · cases h; exact .inr (.inr (.inl ⟨‹_›, rfl⟩))

end Sys2Proof.Machine
end

