-- ==== Sys2Proof/Laws/Exec.lean ====
section
/-! SUPPORT. What a handler can do, said once: the cases of `exec`, from which frames and invariants follow without
unfolding a meaning again (spec/40_control_fsm.md R103). -/

namespace Sys2Proof.Machine

/-- CALL over the shared push (43_control_flow_stack.md R161). -/
theorem exec_call (p : Byte) (s : State) : exec (.call p) s = andThen (push s s.pc) fun t => .next (t.setPc p) := rfl

/-- RET over the shared pop (43_control_flow_stack.md R162). -/
theorem exec_ret (s : State) : exec .ret s = pop s fun v t => .next (t.setPc v) := rfl

/-- The shapes of a handler's next state. -/
inductive Effect (s : State) : State → Prop
  /-- NOP, a branch not taken -/
  | none : Effect s s
  /-- JMP, a branch taken -/
  | jump (p : Byte) : Effect s (s.setPc p)
  /-- LDI MOV CLR IN LDS LSL LSR -/
  | register (r : Fin 32) (v : Byte) : Effect s (s.setReg r v)
  /-- OUT STS -/
  | store (a : DataAddr) (v : Byte) : Effect s (memWrite s a v)
  /-- the ALU-backed instructions that write a register -/
  | aluWrite (op : AluOp) (r : Fin 32) (a b : Byte) :
      Effect s (commitFlags (s.setReg r (alu op a b).result) (alu op a b))
  /-- CPI CP -/
  | aluCompare (a b : Byte) : Effect s (commitFlags s (alu .sub a b))
  /-- PUSH -/
  | push (v : Byte) (c : List Byte) (h : pushContents s.cfg s.stk v = some c) : Effect s { s with stk := c }
  /-- CALL -/
  | call (p : Byte) (c : List Byte) (h : pushContents s.cfg s.stk s.pc = some c) :
      Effect s (State.setPc { s with stk := c } p)
  /-- RET -/
  | ret (v : Byte) (c : List Byte) (h : popContents s.cfg s.stk = some (v, c)) :
      Effect s (State.setPc { s with stk := c } v)
  /-- POP -/
  | pop (v : Byte) (c : List Byte) (r : Fin 32) (h : popContents s.cfg s.stk = some (v, c)) :
      Effect s (State.setReg { s with stk := c } r v)

/-- Every next state of a handler has one of the ten shapes. -/
theorem exec_effect {i : Instr} {s t : State} (h : exec i s = .next t) : Effect s t := by
  cases i with
  | nop => cases h; exact .none
  | ldi d k => obtain ⟨r, _, h⟩ := withReg_eq_next h; cases h; exact .register _ _
  | mov d f =>
    obtain ⟨r, _, h⟩ := withReg_eq_next h
    obtain ⟨q, _, h⟩ := withReg_eq_next h
    cases h; exact .register _ _
  | clr d => obtain ⟨r, _, h⟩ := withReg_eq_next h; cases h; exact .register _ _
  | out a f => obtain ⟨r, _, h⟩ := withReg_eq_next h; cases h; exact .store _ _
  | inp d a => obtain ⟨r, _, h⟩ := withReg_eq_next h; cases h; exact .register _ _
  | sts a f => obtain ⟨r, _, h⟩ := withReg_eq_next h; cases h; exact .store _ _
  | lds d a => obtain ⟨r, _, h⟩ := withReg_eq_next h; cases h; exact .register _ _
  | ori d k => obtain ⟨r, _, h⟩ := withReg_eq_next h; cases h; exact .aluWrite _ _ _ _
  | andi d k => obtain ⟨r, _, h⟩ := withReg_eq_next h; cases h; exact .aluWrite _ _ _ _
  | xori d k => obtain ⟨r, _, h⟩ := withReg_eq_next h; cases h; exact .aluWrite _ _ _ _
  | or d f =>
    obtain ⟨r, _, h⟩ := withReg_eq_next h
    obtain ⟨q, _, h⟩ := withReg_eq_next h
    cases h; exact .aluWrite _ _ _ _
  | and d f =>
    obtain ⟨r, _, h⟩ := withReg_eq_next h
    obtain ⟨q, _, h⟩ := withReg_eq_next h
    cases h; exact .aluWrite _ _ _ _
  | xor d f =>
    obtain ⟨r, _, h⟩ := withReg_eq_next h
    obtain ⟨q, _, h⟩ := withReg_eq_next h
    cases h; exact .aluWrite _ _ _ _
  | addi d k => obtain ⟨r, _, h⟩ := withReg_eq_next h; cases h; exact .aluWrite _ _ _ _
  | subi d k => obtain ⟨r, _, h⟩ := withReg_eq_next h; cases h; exact .aluWrite _ _ _ _
  | add d f =>
    obtain ⟨r, _, h⟩ := withReg_eq_next h
    obtain ⟨q, _, h⟩ := withReg_eq_next h
    cases h; exact .aluWrite _ _ _ _
  | sub d f =>
    obtain ⟨r, _, h⟩ := withReg_eq_next h
    obtain ⟨q, _, h⟩ := withReg_eq_next h
    cases h; exact .aluWrite _ _ _ _
  | inc d => obtain ⟨r, _, h⟩ := withReg_eq_next h; cases h; exact .aluWrite _ _ _ _
  | dec d => obtain ⟨r, _, h⟩ := withReg_eq_next h; cases h; exact .aluWrite _ _ _ _
  | cpi d k => obtain ⟨r, _, h⟩ := withReg_eq_next h; cases h; exact .aluCompare _ _
  | cp d f =>
    obtain ⟨r, _, h⟩ := withReg_eq_next h
    obtain ⟨q, _, h⟩ := withReg_eq_next h
    cases h; exact .aluCompare _ _
  | call p =>
    obtain ⟨u, hu, h⟩ := andThen_eq_next h
    obtain ⟨c, hc, rfl⟩ := push_eq_next hu
    cases h; exact .call _ _ hc
  | ret =>
    have h : pop s (fun v u => .next (u.setPc v)) = .next t := h
    obtain ⟨v, c, hc, h⟩ := pop_eq_next h
    cases h; exact .ret _ _ hc
  | push d =>
    obtain ⟨r, _, h⟩ := withReg_eq_next h
    obtain ⟨c, hc, rfl⟩ := push_eq_next h
    exact .push _ _ hc
  | pop d =>
    obtain ⟨r, _, h⟩ := withReg_eq_next h
    obtain ⟨v, c, hc, h⟩ := pop_eq_next h
    cases h; exact .pop _ _ _ hc
  | jmp p => cases h; exact .jump _
  | breq p => cases h; split <;> constructor
  | brne p => cases h; split <;> constructor
  | brge p => cases h; split <;> constructor
  | brgt p => cases h; split <;> constructor
  | brle p => cases h; split <;> constructor
  | brlt p => cases h; split <;> constructor
  | lsl d => obtain ⟨r, _, h⟩ := withReg_eq_next h; cases h; exact .register _ _
  | lsr d => obtain ⟨r, _, h⟩ := withReg_eq_next h; cases h; exact .register _ _

/-- No handler answers with a refusal. -/
theorem exec_not_refused (i : Instr) (s : State) (r : Refusal) : exec i s ≠ .refused r := by
  intro h
  cases i <;>
    simp only [exec, execNop, execLdi, execMov, execClr, execOut, execIn, execSts, execLds, execOri, execAndi, execXori,
      execOr, execAnd, execXor, execAddi, execSubi, execAdd, execSub, execInc, execDec, execCpi, execCp, execCall, execRet,
      execPush, execPop, execJmp, execBreq, execBrne, execBrge, execBrgt, execBrle, execBrlt, execLsl, execLsr, withReg,
      aluWrite, aluCompare, branchIf, push, pop, raise] at h <;>
    (repeat' split at h) <;> cases h

/-- The Data Memory stays in canonical form and within its bound through any handler (20_memory.md R53, R55). -/
theorem effect_memory {s t : State} (h : Effect s t) (hd : 512 ≤ s.cfg.dmSize) (hw : s.dm.wf = true)
    (hb : s.dm.within s.cfg.dmSize = true) : t.dm.wf = true ∧ t.dm.within t.cfg.dmSize = true := by
  cases h with
  | store a v =>
    have := a.isLt
    exact ⟨wf_write hw _ _, within_write hb (by omega) _⟩
  | _ => exact ⟨hw, hb⟩

/-- The Stack stays within STACK_DEPTH through any handler (20_memory.md R57). -/
theorem effect_stack {s t : State} (h : Effect s t) (hv : s.cfg.stackFaults.fits s.cfg.stackDepth = true)
    (hd : s.stk.length ≤ s.cfg.stackDepth) : t.stk.length ≤ t.cfg.stackDepth := by
  cases h with
  | push v c h => exact pushContents_length h hd
  | call p c h => exact pushContents_length h hd
  | ret v c h => exact popContents_length h hv hd
  | pop v c r h => exact popContents_length h hv hd
  | _ => exact hd

end Sys2Proof.Machine
end

