-- ==== Sys2Proof/Laws/PerInstr.lean ====
section
/-! SUPPORT. Per-instruction laws of the syntax: the family `Fields` says that an instruction is the one its mnemonic and
its two operand fields stand for, so that no operand is dropped between fields and syntax (spec/30_encoding.md R84,
R85). -/

/-- An instruction is rebuilt from its mnemonic and its operand fields (R84, R94). -/
def Sys2Proof.Laws.Fields.Statement (i : Sys2Proof.Instr) : Prop :=
  Sys2Proof.Instr.ofFields i.mnemonic i.operands.1 i.operands.2 = i

theorem Sys2Proof.Laws.Fields.nop : Sys2Proof.Laws.Fields.Statement .nop := rfl
theorem Sys2Proof.Laws.Fields.ldi (d k : Sys2Proof.Byte) : Sys2Proof.Laws.Fields.Statement (.ldi d k) := rfl
theorem Sys2Proof.Laws.Fields.mov (d s : Sys2Proof.Byte) : Sys2Proof.Laws.Fields.Statement (.mov d s) := rfl
theorem Sys2Proof.Laws.Fields.clr (d : Sys2Proof.Byte) : Sys2Proof.Laws.Fields.Statement (.clr d) := rfl
theorem Sys2Proof.Laws.Fields.out (a s : Sys2Proof.Byte) : Sys2Proof.Laws.Fields.Statement (.out a s) := rfl
theorem Sys2Proof.Laws.Fields.inp (d a : Sys2Proof.Byte) : Sys2Proof.Laws.Fields.Statement (.inp d a) := rfl
theorem Sys2Proof.Laws.Fields.sts (a s : Sys2Proof.Byte) : Sys2Proof.Laws.Fields.Statement (.sts a s) := rfl
theorem Sys2Proof.Laws.Fields.lds (d a : Sys2Proof.Byte) : Sys2Proof.Laws.Fields.Statement (.lds d a) := rfl
theorem Sys2Proof.Laws.Fields.ori (d k : Sys2Proof.Byte) : Sys2Proof.Laws.Fields.Statement (.ori d k) := rfl
theorem Sys2Proof.Laws.Fields.andi (d k : Sys2Proof.Byte) : Sys2Proof.Laws.Fields.Statement (.andi d k) := rfl
theorem Sys2Proof.Laws.Fields.xori (d k : Sys2Proof.Byte) : Sys2Proof.Laws.Fields.Statement (.xori d k) := rfl
theorem Sys2Proof.Laws.Fields.or (d s : Sys2Proof.Byte) : Sys2Proof.Laws.Fields.Statement (.or d s) := rfl
theorem Sys2Proof.Laws.Fields.and (d s : Sys2Proof.Byte) : Sys2Proof.Laws.Fields.Statement (.and d s) := rfl
theorem Sys2Proof.Laws.Fields.xor (d s : Sys2Proof.Byte) : Sys2Proof.Laws.Fields.Statement (.xor d s) := rfl
theorem Sys2Proof.Laws.Fields.addi (d k : Sys2Proof.Byte) : Sys2Proof.Laws.Fields.Statement (.addi d k) := rfl
theorem Sys2Proof.Laws.Fields.subi (d k : Sys2Proof.Byte) : Sys2Proof.Laws.Fields.Statement (.subi d k) := rfl
theorem Sys2Proof.Laws.Fields.add (d s : Sys2Proof.Byte) : Sys2Proof.Laws.Fields.Statement (.add d s) := rfl
theorem Sys2Proof.Laws.Fields.sub (d s : Sys2Proof.Byte) : Sys2Proof.Laws.Fields.Statement (.sub d s) := rfl
theorem Sys2Proof.Laws.Fields.inc (d : Sys2Proof.Byte) : Sys2Proof.Laws.Fields.Statement (.inc d) := rfl
theorem Sys2Proof.Laws.Fields.dec (d : Sys2Proof.Byte) : Sys2Proof.Laws.Fields.Statement (.dec d) := rfl
theorem Sys2Proof.Laws.Fields.cpi (d k : Sys2Proof.Byte) : Sys2Proof.Laws.Fields.Statement (.cpi d k) := rfl
theorem Sys2Proof.Laws.Fields.cp (d s : Sys2Proof.Byte) : Sys2Proof.Laws.Fields.Statement (.cp d s) := rfl
theorem Sys2Proof.Laws.Fields.call (p : Sys2Proof.Byte) : Sys2Proof.Laws.Fields.Statement (.call p) := rfl
theorem Sys2Proof.Laws.Fields.ret : Sys2Proof.Laws.Fields.Statement .ret := rfl
theorem Sys2Proof.Laws.Fields.push (d : Sys2Proof.Byte) : Sys2Proof.Laws.Fields.Statement (.push d) := rfl
theorem Sys2Proof.Laws.Fields.pop (d : Sys2Proof.Byte) : Sys2Proof.Laws.Fields.Statement (.pop d) := rfl
theorem Sys2Proof.Laws.Fields.jmp (p : Sys2Proof.Byte) : Sys2Proof.Laws.Fields.Statement (.jmp p) := rfl
theorem Sys2Proof.Laws.Fields.breq (p : Sys2Proof.Byte) : Sys2Proof.Laws.Fields.Statement (.breq p) := rfl
theorem Sys2Proof.Laws.Fields.brne (p : Sys2Proof.Byte) : Sys2Proof.Laws.Fields.Statement (.brne p) := rfl
theorem Sys2Proof.Laws.Fields.brge (p : Sys2Proof.Byte) : Sys2Proof.Laws.Fields.Statement (.brge p) := rfl
theorem Sys2Proof.Laws.Fields.brgt (p : Sys2Proof.Byte) : Sys2Proof.Laws.Fields.Statement (.brgt p) := rfl
theorem Sys2Proof.Laws.Fields.brle (p : Sys2Proof.Byte) : Sys2Proof.Laws.Fields.Statement (.brle p) := rfl
theorem Sys2Proof.Laws.Fields.brlt (p : Sys2Proof.Byte) : Sys2Proof.Laws.Fields.Statement (.brlt p) := rfl
theorem Sys2Proof.Laws.Fields.lsl (d : Sys2Proof.Byte) : Sys2Proof.Laws.Fields.Statement (.lsl d) := rfl
theorem Sys2Proof.Laws.Fields.lsr (d : Sys2Proof.Byte) : Sys2Proof.Laws.Fields.Statement (.lsr d) := rfl
end

