-- ==== Sys2Proof/Laws/Step.lean ====
section
/-! SUPPORT. The step by phase, and runs of steps (spec/40_control_fsm.md R100 to R105). -/

namespace Sys2Proof.Machine

theorem valid_opcodes {cfg : Config} (h : cfg.valid = true) : cfg.opcodes.valid = true := by
  simp only [Config.valid, Bool.and_eq_true] at h
  exact h.1.1.1

theorem valid_dmSize {cfg : Config} (h : cfg.valid = true) : 512 ≤ cfg.dmSize := by
  simp only [Config.valid, Bool.and_eq_true, decide_eq_true_eq] at h
  exact h.1.2.1.1

theorem valid_stackFaults {cfg : Config} (h : cfg.valid = true) : cfg.stackFaults.fits cfg.stackDepth = true := by
  simp only [Config.valid, Bool.and_eq_true] at h
  exact h.2

/-! ## The step by phase -/

theorem step_of_fetch {s : State} (hv : s.cfg.valid = true) (hp : s.phase = .fetch) : step s = .next (doFetch s) := by
  simp [step, stepState_of_valid hv, phaseAction, hp]

theorem step_of_decode {s : State} (hv : s.cfg.valid = true) (hp : s.phase = .decode) :
    step s = .next (doDecode s) := by
  simp [step, stepState_of_valid hv, phaseAction, hp]

theorem step_of_execute {s : State} (hv : s.cfg.valid = true) (hp : s.phase = .execute) : step s = doExecute s := by
  simp [step, stepState_of_valid hv, phaseAction, hp]

theorem currentInstr_of_code {s : State} (hv : s.cfg.valid = true) {mn : Mnemonic}
    (h : s.cfg.opcodes.code mn = s.opc) : currentInstr s = .instr (Instr.ofFields mn s.op1 s.op2) := by
  rw [currentInstr, ← h, decode_of_code (valid_opcodes hv)]

theorem doExecute_of_instr {s : State} {i : Instr} (h : currentInstr s = .instr i) :
    doExecute s = andThen (exec i s) fun t => .next (toFetch t) := by
  rw [doExecute, h]

theorem doExecute_of_unassigned {s : State} (h : ∀ mn, s.cfg.opcodes.code mn ≠ s.opc) :
    doExecute s = .next (fullReset s) := by
  rw [doExecute, currentInstr, decode_of_unassigned h]

/-- No step writes the parameters (00_scope.md R5). -/
theorem step_cfg {s t : State} (h : step s = .next t) : t.cfg = s.cfg := by
  obtain ⟨_, h⟩ := stepState_eq_next h
  rcases h with ⟨_, rfl⟩ | ⟨_, rfl⟩ | ⟨_, rfl⟩ | ⟨_, _, _, rfl⟩ | ⟨_, i, u, _, he, rfl⟩
  all_goals first | rfl | (cases exec_effect he <;> rfl)

/-! ## Runs -/

theorem runSteps_succ {n : Nat} {s t : State} (h : step s = .next t) : runSteps (n + 1) s = runSteps n t := by
  show andThen (stepState s) _ = _
  rw [show stepState s = .next t from h]; rfl

theorem runSteps_one (s : State) : runSteps 1 s = step s := by
  show andThen (stepState s) _ = stepState s
  cases stepState s <;> rfl

theorem runSteps_add (m n : Nat) (s : State) : runSteps (m + n) s = andThen (runSteps m s) (runSteps n) := by
  induction m generalizing s with
  | zero => simp [runSteps]
  | succ m ih =>
    rw [show m + 1 + n = (m + n) + 1 by omega]
    show andThen _ _ = andThen (andThen _ _) _
    rw [andThen_assoc]
    exact congrArg _ (funext fun t => ih t)

end Sys2Proof.Machine
end

