-- ==== Sys2Proof/Machine/Assembler.lean ====
section
/-! DEFINITION. The assembler notation of spec/30_encoding.md R92: from a program text to the containers of PROGRAM, the
first instruction at address 0. A text is a list of characters. No step reads it (log entry 26). -/

namespace Sys2Proof.Assembler
open Sys2Proof

/-! ## Characters and numbers -/

/-- The pieces of a text between the occurrences of a character. -/
def splitAt (c : Char) : List Char → List (List Char)
  | [] => [[]]
  | x :: rest =>
    if x = c then [] :: splitAt c rest
    else match splitAt c rest with
      | [] => [[x]]
      | piece :: pieces => (x :: piece) :: pieces

/-- Blanks within a line. -/
def isBlank (c : Char) : Bool := c == ' ' || c == '\t' || c == '\r'

/-- A text without the blanks at its two ends. -/
def trim (l : List Char) : List Char := ((l.dropWhile isBlank).reverse.dropWhile isBlank).reverse

/-- The value of a digit below `base`. -/
def digitValue (base : Nat) (c : Char) : Option Nat :=
  let v :=
    if '0'.toNat ≤ c.toNat ∧ c.toNat ≤ '9'.toNat then c.toNat - '0'.toNat
    else if 'a'.toNat ≤ c.toNat ∧ c.toNat ≤ 'f'.toNat then c.toNat - 'a'.toNat + 10
    else if 'A'.toNat ≤ c.toNat ∧ c.toNat ≤ 'F'.toNat then c.toNat - 'A'.toNat + 10
    else base
  if v < base then some v else none

/-- The value of digits read from the left. -/
def digitsFrom (base : Nat) : Nat → List Char → Option Nat
  | n, [] => some n
  | n, c :: rest => match digitValue base c with
    | some v => digitsFrom base (n * base + v) rest
    | none => none

/-- The value of one digit or more. -/
def digits (base : Nat) (l : List Char) : Option Nat := if l = [] then none else digitsFrom base 0 l

/-- An immediate or an address: a decimal number or a `0x` hexadecimal one, 0 to 255. -/
def byteOf (l : List Char) : Option Byte :=
  let n := match l with
    | '0' :: 'x' :: rest => digits 16 rest
    | _ => digits 10 l
  n.bind fun v => if v ≤ 255 then some (BitVec.ofNat 8 v) else none

/-- A register: `R` and a decimal number of 0 to 31 (R90: a name outside is refused). -/
def registerOf (l : List Char) : Option Byte :=
  match l with
  | 'R' :: rest => (digits 10 rest).bind fun v => if v ≤ 31 then some (BitVec.ofNat 8 v) else none
  | _ => none

/-! ## Lines -/

/-- The labels of a text with their addresses. -/
abbrev Labels := List (List Char × Byte)

/-- The address a label stands for, of two equal labels the first (DESIGN CHOICE, log entry 26). -/
def Labels.find (labels : Labels) (name : List Char) : Option Byte :=
  match labels with
  | [] => none
  | (n, a) :: rest => if n = name then some a else Labels.find rest name

/-- A program address: a number or a label. R92 does not say what a label may be called: a name that reads as a number
stands for the number here, never for a label (DESIGN CHOICE, log entry 26). -/
def addressOf (labels : Labels) (l : List Char) : Option Byte := (byteOf l).or (labels.find l)

/-- The mnemonic of a name in capitals. -/
def mnemonicOf (l : List Char) : Option Mnemonic := Mnemonic.all.find? fun m => m.spelling.toList == l

/-- The two operand fields from the written operands, in the order of R85. -/
def fieldsOf (labels : Labels) (f : Format) (operands : List (List Char)) : Option (Byte × Byte) :=
  match f, operands with
  | .RI, [a, b] => (registerOf a).bind fun x => (byteOf b).map fun y => (x, y)
  | .RR, [a, b] => (registerOf a).bind fun x => (registerOf b).map fun y => (x, y)
  | .AR, [a, b] => (byteOf a).bind fun x => (registerOf b).map fun y => (x, y)
  | .RA, [a, b] => (registerOf a).bind fun x => (byteOf b).map fun y => (x, y)
  | .R, [a] => (registerOf a).map fun x => (x, 0)
  | .P, [a] => (addressOf labels a).map fun x => (x, 0)
  | .N, [] => some (0, 0)
  | _, _ => none

/-- The operands of a line, separated by commas. -/
def operandsOf (l : List Char) : List (List Char) :=
  if trim l = [] then [] else (splitAt ',' l).map trim

/-- One instruction without label and comment. -/
def instrOf (labels : Labels) (l : List Char) : Option Instr :=
  let name := l.takeWhile fun c => !isBlank c
  let rest := l.dropWhile fun c => !isBlank c
  (mnemonicOf name).bind fun m =>
    (fieldsOf labels m.format (operandsOf rest)).map fun fs => Instr.ofFields m fs.1 fs.2

/-- A line of the text: an optional label and the text of its instruction. -/
structure Line where
  label : Option (List Char)
  body : List Char
  deriving DecidableEq, Repr

/-- A line without its comment, its label taken off. R92 does not say what a label may be called: any text before the
one colon of a line is a label here, the empty text too (DESIGN CHOICE, log entry 26). -/
def lineOf (l : List Char) : Line :=
  let code := l.takeWhile fun c => c != ';'
  match splitAt ':' code with
  | [name, body] => { label := some (trim name), body := trim body }
  | _ => { label := none, body := trim code }

/-- The lines of a text that hold an instruction or a label. -/
def linesOf (text : List Char) : List Line :=
  ((splitAt '\n' text).map lineOf).filter fun l => l.label.isSome || l.body != []

/-- The labels of the lines, the first line at the given address. -/
def labelsFrom : Nat → List Line → Labels
  | _, [] => []
  | a, l :: rest => match l.label with
    | some name => (name, BitVec.ofNat 8 a) :: labelsFrom (a + 1) rest
    | none => labelsFrom (a + 1) rest

/-- The containers of the lines, if every line is an instruction. -/
def containersOf (opcodes : OpcodeMap) (labels : Labels) : List Line → Option (List Container)
  | [] => some []
  | l :: rest =>
    ((instrOf labels l.body).bind (assemble opcodes)).bind fun c =>
      (containersOf opcodes labels rest).map fun cs => c :: cs

/-- The program of a text, at most 256 containers; nothing where a line is no instruction. -/
def program (opcodes : OpcodeMap) (text : List Char) : Option (List Container) :=
  let lines := linesOf text
  if lines.length ≤ 256 then containersOf opcodes (labelsFrom 0 lines) lines else none

end Sys2Proof.Assembler
end

