-- ==== Sys2Proof/Tests/Slice0.lean ====
section
/-! SUPPORT. Tests. The expected values are the vectors of spec/95_test_vectors.md, named in the docstring of each test,
or worked out by hand from a rule; the words are written out from the field layout of spec/30_encoding.md R81 and the
table of R86. The witnesses at the end meet the hypotheses of the statements in Certificates/Slice0. -/

namespace Sys2Proof.Tests
open Sys2Proof Sys2Proof.Machine

/-! ## Helpers -/

/-- One view of the next state, nothing where the outcome has none. -/
def after {α : Type} (o : Result) (view : State → α) : Option α :=
  match o with
  | .next t => some (view t)
  | .fault _ => none
  | .refused _ => none

/-- The model fault of an outcome. -/
def stopOf (o : Result) : Option Fault :=
  match o with
  | .next _ => none
  | .fault f => some f
  | .refused _ => none

/-- The reset state with one register set. -/
def with1 (r : Fin 32) (v : Byte) : State := State.reset.setReg r v

/-- The reset state with two registers set. -/
def with2 (r : Fin 32) (v : Byte) (q : Fin 32) (w : Byte) : State := (with1 r v).setReg q w

/-- Flags in the order S N Z V C, I clear. -/
def fl (s n z v c : Bool) : Status := ⟨false, s, n, z, v, c⟩

/-- `1 1 0 0 1` -/
def snc : Status := fl true true false false true

/-- The reset state with the Execute phase of the given fields pending. -/
def executing (opc op1 op2 : Byte) : State := { State.reset with phase := .execute, opc := opc, op1 := op1, op2 := op2 }

/-- The reset state with these parameters. -/
def under (cfg : Config) : State := State.resetOf cfg

/-- REG_OOR = mask5. -/
def maskCfg : Config := { Config.default with regOor := .mask5 }

/-- STACK_DEPTH = 1. -/
def depth1 : Config := { Config.default with stackDepth := 1 }

/-- A program. -/
def loaded (p : List Container) : Config := Config.default.withProgram p

/-! ## WellFormed: an ill-formed term of each shape is refused, register 31 is not -/

theorem test_wf_RI : (Instr.ldi 32 1).wellFormed = false ∧ (Instr.ldi 31 255).wellFormed = true := by decide
theorem test_wf_RR_d : (Instr.mov 32 0).wellFormed = false ∧ (Instr.mov 31 31).wellFormed = true := by decide
theorem test_wf_RR_s : (Instr.add 1 40).wellFormed = false := by decide
theorem test_wf_R : (Instr.clr 255).wellFormed = false ∧ (Instr.clr 0).wellFormed = true := by decide
theorem test_wf_AR : (Instr.out 36 32).wellFormed = false ∧ (Instr.out 255 31).wellFormed = true := by decide
theorem test_wf_RA : (Instr.inp 128 0).wellFormed = false ∧ (Instr.inp 31 255).wellFormed = true := by decide
theorem test_wf_P_N : (Instr.jmp 255).wellFormed = true ∧ Instr.ret.wellFormed = true := by decide
theorem test_assemble_refuses : assemble OpcodeMap.default (.mov 32 0) = none := by decide

/-! ## Decode: one word of each constructor, opcode byte ++ operand1 ++ operand2 -/

theorem test_decode_nop : decode OpcodeMap.default 0x000012AB#32 = .instr .nop := by decide
theorem test_decode_ldi : decode OpcodeMap.default 0x00011001#32 = .instr (.ldi 16 1) := by decide
theorem test_decode_mov : decode OpcodeMap.default 0x00020102#32 = .instr (.mov 1 2) := by decide
theorem test_decode_clr : decode OpcodeMap.default 0x000305EE#32 = .instr (.clr 5) := by decide
theorem test_decode_out : decode OpcodeMap.default 0x00042410#32 = .instr (.out 0x24 16) := by decide
theorem test_decode_in : decode OpcodeMap.default 0x00051124#32 = .instr (.inp 17 0x24) := by decide
theorem test_decode_sts : decode OpcodeMap.default 0x00061011#32 = .instr (.sts 0x10 17) := by decide
theorem test_decode_lds : decode OpcodeMap.default 0x00071210#32 = .instr (.lds 18 0x10) := by decide
theorem test_decode_ori : decode OpcodeMap.default 0x0008010F#32 = .instr (.ori 1 0x0F) := by decide
theorem test_decode_andi : decode OpcodeMap.default 0x0009010F#32 = .instr (.andi 1 0x0F) := by decide
theorem test_decode_xori : decode OpcodeMap.default 0x000A01FF#32 = .instr (.xori 1 0xFF) := by decide
theorem test_decode_or : decode OpcodeMap.default 0x000B0102#32 = .instr (.or 1 2) := by decide
theorem test_decode_and : decode OpcodeMap.default 0x000C0102#32 = .instr (.and 1 2) := by decide
theorem test_decode_xor : decode OpcodeMap.default 0x000D0102#32 = .instr (.xor 1 2) := by decide
theorem test_decode_addi : decode OpcodeMap.default 0x000E0103#32 = .instr (.addi 1 3) := by decide
theorem test_decode_subi : decode OpcodeMap.default 0x000F01FF#32 = .instr (.subi 1 0xFF) := by decide
theorem test_decode_add : decode OpcodeMap.default 0x00101110#32 = .instr (.add 17 16) := by decide
theorem test_decode_sub : decode OpcodeMap.default 0x00110102#32 = .instr (.sub 1 2) := by decide
theorem test_decode_inc : decode OpcodeMap.default 0x00120400#32 = .instr (.inc 4) := by decide
theorem test_decode_dec : decode OpcodeMap.default 0x00131000#32 = .instr (.dec 16) := by decide
theorem test_decode_cpi : decode OpcodeMap.default 0x00141005#32 = .instr (.cpi 16 5) := by decide
theorem test_decode_cp : decode OpcodeMap.default 0x00150102#32 = .instr (.cp 1 2) := by decide
theorem test_decode_call : decode OpcodeMap.default 0x00160500#32 = .instr (.call 5) := by decide
theorem test_decode_ret : decode OpcodeMap.default 0x0017ABCD#32 = .instr .ret := by decide
theorem test_decode_push : decode OpcodeMap.default 0x00181000#32 = .instr (.push 16) := by decide
theorem test_decode_pop : decode OpcodeMap.default 0x00191100#32 = .instr (.pop 17) := by decide
theorem test_decode_jmp : decode OpcodeMap.default 0x001A4000#32 = .instr (.jmp 0x40) := by decide
theorem test_decode_breq : decode OpcodeMap.default 0x001B0900#32 = .instr (.breq 9) := by decide
theorem test_decode_brne : decode OpcodeMap.default 0x001C0900#32 = .instr (.brne 9) := by decide
theorem test_decode_brge : decode OpcodeMap.default 0x001D0900#32 = .instr (.brge 9) := by decide
theorem test_decode_brgt : decode OpcodeMap.default 0x001E0900#32 = .instr (.brgt 9) := by decide
theorem test_decode_brle : decode OpcodeMap.default 0x001F0900#32 = .instr (.brle 9) := by decide
theorem test_decode_brlt : decode OpcodeMap.default 0x00200500#32 = .instr (.brlt 5) := by decide
theorem test_decode_lsl : decode OpcodeMap.default 0x00210200#32 = .instr (.lsl 2) := by decide
theorem test_decode_lsr : decode OpcodeMap.default 0x00220200#32 = .instr (.lsr 2) := by decide

/-- T-INV-1, T-INV-2: the first unassigned byte and the last. -/
theorem test_decode_rejected :
    decode OpcodeMap.default 0x00230000#32 = .rejected (.unrecognizedOpcode 0x23) ∧
    decode OpcodeMap.default 0x00FF0000#32 = .rejected (.unrecognizedOpcode 0xFF) := by decide

/-- T-FSM-6 -/
theorem test_decode_top_byte : decode OpcodeMap.default 0xAB011001#32 = .instr (.ldi 16 1) := by decide

/-- The example words of R94. -/
theorem test_encode :
    encode OpcodeMap.default (.ldi 16 1) = 0x00011001#32 ∧ encode OpcodeMap.default (.out 0x24 16) = 0x00042410#32 ∧
    encode OpcodeMap.default (.call 5) = 0x00160500#32 ∧ encode OpcodeMap.default .ret = 0x00170000#32 := by decide

theorem test_spelling : (Instr.ldi 16 1).spelling = "LDI R16,1" ∧ Instr.ret.spelling = "RET" := by decide

/-- Program P1, with a comment, a label and a blank line. -/
theorem test_assembler :
    Assembler.program OpcodeMap.default
      "LDI R16,0x01 ; one\nOUT 0x24,R16\n\nend: JMP end".toList =
      some [0x00011001#32, 0x00042410#32, 0x001A0200#32] := by decide

/-- R90: a register name outside R0 to R31 is refused, and so is a number above 255. -/
theorem test_assembler_refuses :
    Assembler.program OpcodeMap.default "MOV R32,R0".toList = none ∧
    Assembler.program OpcodeMap.default "LDI R1,256".toList = none := by decide

/-! ## What the host reads: the opcode table's words, and the first step after reset -/

theorem test_table_word : decodeTableWord 24 0x011001 = some (.ldi 16 1) ∧ decodeTableWord 32 0x00230000 = none := by
  decide

theorem test_fetch_word :
    after (step (State.reset.withFetchWord 24 0x011001)) (fun t => (t.getReg 16, t.pc, t.phase)) =
      some (0x01, 0x01, .fetch) := by decide

theorem test_fetch_word_jump :
    after (step (State.reset.withFetchWord 32 0x001A4000)) (fun t => (t.pc, t.mar, t.ir)) =
      some (0x40, 0x00, 0x001A4000) := by decide

/-! ## Data movement -/

/-- T-DM-1, T-DM-2 -/
theorem test_ldi :
    after (exec (.ldi 0 0xFF) State.reset) (fun t => (t.getReg 0, t.sr, t.pc)) = some (0xFF, Status.cleared, 0) ∧
    after (exec (.ldi 31 0x00) (with1 31 0x55)) (fun t => (t.getReg 31, t.sr.z)) = some (0x00, false) := by decide
/-- T-DM-3 -/
theorem test_mov :
    after (exec (.mov 1 2) (with1 2 0xAB)) (fun t => (t.getReg 1, t.getReg 2)) = some (0xAB, 0xAB) := by decide
/-- T-DM-5 -/
theorem test_clr :
    after (exec (.clr 5) { with1 5 0x7F with sr := snc }) (fun t => (t.getReg 5, t.sr)) = some (0x00, snc) := by decide
/-- T-DM-8 -/
theorem test_out :
    after (exec (.out 0xFF 1) (with1 1 0x9C)) (fun t => (t.dm.read 0x0FF, t.dm.read 0x1FF)) = some (0x9C, 0x00) := by
  decide
/-- T-DM-9, T-DM-10 -/
theorem test_in :
    after (exec (.inp 17 0x24) { State.reset with dm := [(0x024, 0x01)] }) (fun t => (t.getReg 17, t.dm)) =
      some (0x01, [(0x024, 0x01)]) ∧
    after (exec (.inp 17 0x30) (with1 17 0x77)) (fun t => t.getReg 17) = some 0x00 := by decide
/-- T-DM-11, T-DM-12 -/
theorem test_sts :
    after (exec (.sts 0x10 17) (with1 17 0x06)) (fun t => (t.dm.read 0x110, t.dm.read 0x010)) = some (0x06, 0x00) ∧
    after (exec (.sts 0xFF 1) (with1 1 0x42)) (fun t => t.dm) = some [(0x1FF, 0x42)] := by decide
/-- T-DM-13 -/
theorem test_lds :
    after (exec (.lds 18 0x10) { State.reset with dm := [(0x010, 0x99), (0x110, 0x06)] }) (fun t => t.getReg 18) =
      some 0x06 := by decide
/-- T-DM-15, T-AL-26 -/
theorem test_register_out_of_range :
    stopOf (exec (.mov 32 0) State.reset) = some .regIndexOutOfRange ∧
    stopOf (exec (.add 1 40) State.reset) = some .regIndexOutOfRange ∧
    after (exec (.mov 32 0) { under maskCfg with x := Vector.replicate 32 9 }) (fun t => t.getReg 0) = some 9 := by
  decide

/-! ## The ALU -/

/-- T-ALU-14, 17, 18, 19 -/
theorem test_alu_add :
    alu .add 0x7F 0x01 = ⟨0x80, true, true, false, true, false⟩ ∧
    alu .add 0x80 0x80 = ⟨0x00, false, false, true, true, true⟩ ∧
    alu .add 0xD0 0x90 = ⟨0x60, false, false, false, true, true⟩ ∧
    alu .add 0xFF 0xFF = ⟨0xFE, true, true, false, false, true⟩ := by decide
/-- T-ALU-26, 29, 30, 32 -/
theorem test_alu_sub :
    alu .sub 0x80 0x01 = ⟨0x7F, false, false, false, true, false⟩ ∧
    alu .sub 0x7F 0xFF = ⟨0x80, true, true, false, true, true⟩ ∧
    alu .sub 0x00 0x80 = ⟨0x80, true, true, false, true, true⟩ ∧
    alu .sub 0x50 0xF0 = ⟨0x60, false, false, false, false, true⟩ := by decide

/-! ## Logic and arithmetic -/

/-- What the ALU-backed instructions show of register r and the flags. -/
def aluView (r : Fin 32) (t : State) : Byte × Status := (t.getReg r, t.sr)

/-- T-AL-1 -/
theorem test_ori :
    after (exec (.ori 1 0x0F) (with1 1 0xA0)) (aluView 1) = some (0xAF, fl true true false false false) := by decide
/-- T-AL-3: old C and V are not preserved. -/
theorem test_andi :
    after (exec (.andi 1 0x00) { with1 1 0xA5 with sr := fl true true false true true }) (aluView 1) =
      some (0x00, fl false false true false false) := by decide
/-- T-AL-4 -/
theorem test_xori :
    after (exec (.xori 1 0xFF) (with1 1 0x0F)) (aluView 1) = some (0xF0, fl true true false false false) := by decide
/-- T-AL-5; T-ALU-1 -/
theorem test_or :
    after (exec (.or 1 2) State.reset) (aluView 1) = some (0x00, fl false false true false false) ∧
    after (exec (.or 1 2) (with2 1 0xA0 2 0x0F)) (aluView 1) = some (0xAF, fl true true false false false) := by decide
/-- T-AL-6 -/
theorem test_and :
    after (exec (.and 1 2) (with2 1 0xF0 2 0x3C)) (aluView 1) = some (0x30, Status.cleared) := by decide
/-- T-AL-7; T-ALU-9 -/
theorem test_xor :
    after (exec (.xor 3 3) (with1 3 0x5A)) (aluView 3) = some (0x00, fl false false true false false) ∧
    after (exec (.xor 1 2) (with2 1 0xFF 2 0x7F)) (aluView 1) = some (0x80, fl true true false false false) := by decide
/-- T-AL-8 -/
theorem test_addi :
    after (exec (.addi 1 0x01) (with1 1 0xFF)) (aluView 1) = some (0x00, fl false false true false true) := by decide
/-- T-AL-10 -/
theorem test_subi :
    after (exec (.subi 1 0xFF) (with1 1 0x7F)) (aluView 1) = some (0x80, fl true true false true true) := by decide
/-- T-AL-11, T-AL-12 -/
theorem test_add :
    after (exec (.add 1 2) (with2 1 0x7F 2 0x01)) (aluView 1) = some (0x80, fl true true false true false) ∧
    after (exec (.add 4 4) (with1 4 0x80)) (aluView 4) = some (0x00, fl false false true true true) := by decide
/-- T-AL-13; T-ALU-22 -/
theorem test_sub :
    after (exec (.sub 1 2) (with2 1 0x80 2 0x01)) (aluView 1) = some (0x7F, fl false false false true false) ∧
    after (exec (.sub 1 2) (with2 1 0x03 2 0x05)) (aluView 1) = some (0xFE, snc) := by decide
/-- T-AL-16, T-AL-17 -/
theorem test_inc :
    after (exec (.inc 4) (with1 4 0xFF)) (aluView 4) = some (0x00, fl false false true false true) ∧
    after (exec (.inc 4) (with1 4 0x7F)) (aluView 4) = some (0x80, fl true true false true false) := by decide
/-- T-AL-19, T-AL-20 -/
theorem test_dec :
    after (exec (.dec 16) State.reset) (aluView 16) = some (0xFF, snc) ∧
    after (exec (.dec 16) (with1 16 0x80)) (aluView 16) = some (0x7F, fl false false false true false) := by decide
/-- T-AL-21, T-AL-22 -/
theorem test_cpi :
    after (exec (.cpi 16 5) (with1 16 0x05)) (aluView 16) = some (0x05, fl false false true false false) ∧
    after (exec (.cpi 16 5) (with1 16 0x03)) (aluView 16) = some (0x03, snc) := by decide
/-- T-AL-24, T-AL-25 -/
theorem test_cp :
    after (exec (.cp 1 2) (with2 1 0x03 2 0x05)) (aluView 1) = some (0x03, snc) ∧
    after (exec (.cp 9 9) (with1 9 0xEE)) (aluView 9) = some (0xEE, fl false false true false false) := by decide

/-! ## Control flow and stack -/

/-- pc and the Stack. -/
def flow (t : State) : Byte × List Byte := (t.pc, t.stk)

/-- T-CF-1, T-CF-2 -/
theorem test_call :
    after (exec (.call 5) { State.reset with pc := 0x01 }) flow = some (0x05, [0x01]) ∧
    after (exec (.call 0x20) { State.reset with stk := [0x33] }) flow = some (0x20, [0x33, 0x00]) := by decide
/-- T-CF-3, T-CF-5 -/
theorem test_ret :
    after (exec .ret { State.reset with pc := 0x06, stk := [0x01] }) flow = some (0x01, []) ∧
    stopOf (exec .ret State.reset) = some .stackUnderflow := by decide
/-- T-CF-6, T-CF-9 -/
theorem test_push :
    after (exec (.push 16) (with1 16 0xAA)) flow = some (0x00, [0xAA]) ∧
    stopOf (exec (.push 1) { under depth1 with stk := [7] }) = some .stackOverflow := by decide
/-- T-CF-7, T-CF-8 -/
theorem test_pop :
    after (exec (.pop 17) { State.reset with stk := [0x10, 0xAA] }) (fun t => (t.getReg 17, t.stk)) =
      some (0xAA, [0x10]) ∧
    stopOf (exec (.pop 17) State.reset) = some .stackUnderflow := by decide
/-- T-CF-10 -/
theorem test_jmp : after (exec (.jmp 0x40) { State.reset with pc := 0x03 }) flow = some (0x40, []) := by decide

/-! ## Branches: the table of spec/95_test_vectors.md 2.5, rows (S,Z) = 00, 01, 10 -/

/-- Where a branch at address 2 to address 9 goes under the given S and Z: `true` for taken. -/
def taken (i : Instr) (s z : Bool) : Option Bool :=
  after (exec i { State.reset with pc := 0x03, sr := fl s s z false false }) fun t => t.pc == 0x09

/-- The three reachable rows. -/
def rows (i : Instr) : List (Option Bool) := [taken i false false, taken i false true, taken i true false]

theorem test_breq : rows (.breq 9) = [some false, some true, some false] := by decide
theorem test_brne : rows (.brne 9) = [some true, some false, some true] := by decide
theorem test_brge : rows (.brge 9) = [some true, some true, some false] := by decide
theorem test_brgt : rows (.brgt 9) = [some true, some false, some false] := by decide
theorem test_brle : rows (.brle 9) = [some false, some true, some true] := by decide
theorem test_brlt : rows (.brlt 9) = [some false, some false, some true] := by decide

/-- The unreachable row S = Z = 1 of the same table. -/
theorem test_branches_both :
    [taken (.breq 9) true true, taken (.brne 9) true true, taken (.brge 9) true true, taken (.brgt 9) true true,
      taken (.brle 9) true true, taken (.brlt 9) true true] =
      [some true, some false, some false, some false, some true, some true] := by decide

/-! ## Shifts, NOP, unrecognized opcodes -/

/-- T-SH-1, T-SH-2 -/
theorem test_lsl :
    after (exec (.lsl 2) (with1 2 0x81)) (aluView 2) = some (0x02, Status.cleared) ∧
    after (exec (.lsl 2) { with1 2 0x80 with sr := fl true true false false false }) (aluView 2) =
      some (0x00, fl true true false false false) := by decide
/-- T-SH-4, T-SH-6 -/
theorem test_lsr :
    after (exec (.lsr 2) (with1 2 0x81)) (aluView 2) = some (0x40, Status.cleared) ∧
    after (exec (.lsr 2) (with1 2 0x80)) (aluView 2) = some (0x40, Status.cleared) := by decide
/-- T-NOP-1 -/
theorem test_nop : after (exec .nop { State.reset with sr := snc }) id = some { State.reset with sr := snc } := by decide
/-- T-INV-1 -/
theorem test_unrecognized :
    after (step { executing 0x23 0 0 with pc := 0x04, stk := [7], dm := [(0x010, 7)], sr := snc }) id =
      some State.reset := by decide
/-- T-INV-3: nothing is reset before the Execute phase. -/
theorem test_unrecognized_decode :
    after (step { State.reset with phase := .decode, ir := 0x00FF0000, stk := [7] })
      (fun t => (t.opc, t.phase, t.ir, t.stk)) = some (0xFF, .execute, 0x00FF0000, [7]) := by decide

/-! ## The state machine -/

/-- T-FSM-1 -/
theorem test_fetch :
    after (step { State.reset with pc := 0x07, pm := [(7, 0x00011001)], op1 := 5 })
      (fun t => (t.phase, t.ir, t.mar, t.pc, t.op1)) = some (.decode, 0x00011001, 0x07, 0x08, 5) := by decide
/-- T-FSM-2 -/
theorem test_decode :
    after (step { State.reset with phase := .decode, ir := 0x00042410 }) (fun t => (t.phase, t.opc, t.op1, t.op2)) =
      some (.execute, 0x04, 0x24, 0x10) := by decide
/-- T-FSM-5 -/
theorem test_pc_wrap :
    after (step { State.reset with pc := 0xFF }) (fun t => (t.mar, t.pc, t.phase)) = some (0xFF, 0x00, .decode) := by
  decide
/-- T-FSM-7, and the last implemented address beside it -/
theorem test_fetch_out_of_range :
    after (step { under { Config.default with pmSize := 4 } with pc := 0x04, pm := [(3, 0x00170000)] }) (fun t => t.ir) =
      some 0 ∧
    after (step { under { Config.default with pmSize := 4 } with pc := 0x03, pm := [(3, 0x00170000)] }) (fun t => t.ir) =
      some 0x00170000 := by decide
/-- T-FSM-8 -/
theorem test_invalid_state :
    after (step { State.reset with phase := .invalid, pc := 9, mar := 3, ir := 5 }) id = some State.reset := by decide
/-- T-FSM-9 -/
theorem test_reset_priority :
    after (clockEdge ⟨true, true⟩ { executing 0x01 16 1 with pc := 1 }) id = some State.reset := by decide
/-- T-FSM-3, call 1 -/
theorem test_step_instruction :
    after (stepInstruction (under (loaded [0x00011001, 0x00042410, 0x001A0200])))
      (fun t => (t.phase, t.pc, t.ir, t.getReg 16)) = some (.execute, 0x01, 0x00011001, 0x00) := by decide

/-! ## The configuration and the memory -/

theorem test_default_valid : Config.default.valid = true := by decide
theorem test_small_data_memory : { Config.default with dmSize := 511 }.valid = false := by decide
theorem test_map_not_injective : OpcodeMap.valid (OpcodeMap.default.set 3 0x02) = false := by decide
theorem test_map_nop_moved : OpcodeMap.valid (OpcodeMap.default.set 0 0x40) = false := by decide
theorem test_write_zero_removes : Memory.write [(3, 7), (9, 5)] 3 (0x00 : Byte) = [(9, 5)] := by decide
theorem test_write_sorted : Memory.write [(3, 7), (9, 5)] 4 (0x01 : Byte) = [(3, 7), (4, 1), (9, 5)] := by decide
theorem test_not_canonical :
    Memory.wf [(3, (0x00 : Byte))] = false ∧ Memory.wf [(9, (0x01 : Byte)), (3, 1)] = false := by decide
theorem test_packed_status : Status.packed ⟨true, false, true, false, true, false⟩ = 0b101010#6 := by decide

/-! ## Witnesses: for every statement with hypotheses, states and operands that meet them, each clause at its boundary -/

/-- No mnemonic has the opcode byte 0x23, the first unassigned one. -/
theorem unassigned : ∀ mn, OpcodeMap.default.code mn ≠ 0x23#8 := by intro mn; cases mn <;> decide

/-- A second opcode map: LDI moved to 0xFF. -/
def otherMap : OpcodeMap := OpcodeMap.default.set 1 0xFF

theorem witness_DecodeOfEncodeGivesInstruction :
    OpcodeMap.default.valid = true ∧ otherMap.valid = true ∧ encode otherMap (.ldi 255 1) = 0x00FFFF01#32 := by decide

theorem witness_EncodeOfDecodedKeepsUsedBits :
    decode OpcodeMap.default 0xAB17ABCD#32 = .instr .ret ∧ decode OpcodeMap.default 0x000305EE#32 = .instr (.clr 5) ∧
    decode OpcodeMap.default 0xFF00FFFF#32 = .instr .nop ∧ decode otherMap 0x00FF1001#32 = .instr (.ldi 16 1) := by decide

theorem witness_TopByteNeverInfluencesBehaviour :
    0xAB011001#32 &&& 0x00FFFFFF#32 = 0x00011001#32 &&& 0x00FFFFFF#32 ∧
    State.reset.cfg.valid = true ∧ State.reset.phase = .fetch ∧
    0xAB011001#32 &&& 0x00FFFFFF#32 =
      { State.reset with phase := .decode, ir := 0x00011001 }.ir &&& 0x00FFFFFF#32 := by decide

theorem witness_EveryContainerIsClassified :
    ((executing 0x23 0 0).cfg.valid = true ∧ (executing 0x23 0 0).phase = .execute) ∧
    ∀ mn, (executing 0x23 0 0).cfg.opcodes.code mn ≠ (executing 0x23 0 0).opc := ⟨by decide, unassigned⟩

theorem witness_RegisterFieldSelection :
    ((0 : Byte).toNat ≤ 31 ∧ (31 : Byte).toNat ≤ 31) ∧
    (32 ≤ (32 : Byte).toNat ∧ 32 ≤ (255 : Byte).toNat ∧ Config.default.regOor = .fault) ∧
    maskCfg.regOor = .mask5 ∧ regIndex maskCfg 32 = some 0 ∧ regIndex maskCfg 255 = some 31 := by decide

theorem witness_IllFormedInstructionFaults :
    (State.reset.cfg.regOor = .fault ∧ (Instr.mov 31 32).wellFormed = false ∧ (Instr.push 255).wellFormed = false) ∧
    (Instr.mov 31 31).wellFormed = true ∧
    ((under depth1).cfg.regOor = .fault ∧
      stopOf (exec (.push 32) { under depth1 with stk := [7] }) = some .regIndexOutOfRange ∧
      stopOf (exec (.pop 32) (under depth1)) = some .regIndexOutOfRange) := by decide

theorem witness_MaskedRegisterFields :
    (under maskCfg).cfg.regOor = .mask5 ∧ (Instr.add 32 255).maskRegFields = .add 0 31 ∧
    maskCfg.valid = true := by decide

theorem witness_FetchPhase :
    (State.reset.cfg.valid = true ∧ State.reset.phase = .fetch) ∧
    (({ State.reset with pc := 0xFF } : State).cfg.valid = true ∧
      ({ State.reset with pc := 0xFF } : State).phase = .fetch) := by decide

theorem witness_DecodePhase :
    ({ State.reset with phase := .decode, ir := 0xAB042410 } : State).cfg.valid = true ∧
    ({ State.reset with phase := .decode, ir := 0xAB042410 } : State).phase = .decode := by decide

theorem witness_StepRunsTheDecodedInstruction :
    ((executing 1 16 1).cfg.valid = true ∧ (executing 1 16 1).phase = .execute ∧
      decodeFields OpcodeMap.default 1 16 1 = .instr (.ldi 16 1)) ∧
    (∃ t, exec (.ldi 16 1) (executing 1 16 1) = .next t) ∧
    decodeFields OpcodeMap.default 2 32 0 = .instr (.mov 32 0) ∧
    (∃ f, exec (.mov 32 0) (executing 2 32 0) = .fault f) := ⟨by decide, ⟨_, rfl⟩, by decide, ⟨_, rfl⟩⟩

theorem witness_ExecutePhase :
    ((executing 1 16 1).cfg.valid = true ∧ (executing 1 16 1).phase = .execute ∧
      (executing 1 16 1).cfg.opcodes.code .ldi = (executing 1 16 1).opc) ∧
    (∃ t, exec (Instr.ofFields .ldi 16 1) (executing 1 16 1) = .next t) ∧
    (executing 2 32 0).cfg.opcodes.code .mov = (executing 2 32 0).opc ∧
    (∃ f, exec (Instr.ofFields .mov 32 0) (executing 2 32 0) = .fault f) ∧
    (∀ mn, (executing 0x23 0 0).cfg.opcodes.code mn ≠ (executing 0x23 0 0).opc) :=
  ⟨by decide, ⟨_, rfl⟩, by decide, ⟨_, rfl⟩, unassigned⟩

theorem witness_ExecutePhaseIsTotal :
    ((executing 1 16 1).cfg.valid = true ∧ (executing 1 16 1).phase = .execute) ∧
    ((executing 0x23 0 0).cfg.valid = true ∧ (executing 0x23 0 0).phase = .execute) ∧
    stopOf (exec (.mov 32 0) State.reset) = some .regIndexOutOfRange ∧
    stopOf (exec (.call 5) { under depth1 with stk := [7] }) = some .stackOverflow ∧
    stopOf (exec (.pop 0) State.reset) = some .stackUnderflow := by decide

/-- The reset state with a program loaded. -/
def running (p : List Container) : State := under (loaded p)

theorem witness_InstructionCycleIsThreeSteps :
    (running [0x00160500]).cfg.valid = true ∧ (running [0x00160500]).phase = .fetch ∧
    decode (running [0x00160500]).cfg.opcodes (pmRead (running [0x00160500]) (running [0x00160500]).pc) =
      .instr (.call 5) := by decide

theorem witness_InvalidStateCodeResets :
    ({ State.reset with phase := .invalid, pc := 9 } : State).cfg.valid = true ∧
    ({ State.reset with phase := .invalid, pc := 9 } : State).phase = .invalid := by decide

theorem witness_StepInstructionEndsAtExecute :
    (∃ t, stepInstruction State.reset = .next t) ∧ (executing 1 16 1).phase = .execute ∧
    State.reset.phase = .fetch ∧ ({ State.reset with phase := .decode } : State).phase = .decode :=
  ⟨⟨_, rfl⟩, rfl, rfl, rfl⟩

theorem witness_InstructionCallsLagOneExecute : State.reset.phase = .fetch := rfl

theorem witness_FullResetRestoresEverything :
    State.reset.cfg = (executing 1 16 1).cfg ∧ (executing 0x23 0 0).cfg.valid = true ∧
    ({ State.reset with phase := .invalid } : State).phase = .invalid ∧ (executing 0x23 0 0).phase = .execute ∧
    ∀ mn, (executing 0x23 0 0).cfg.opcodes.code mn ≠ (executing 0x23 0 0).opc :=
  ⟨rfl, by decide, rfl, rfl, unassigned⟩

/-- The reset state with a program loaded after its Fetch phase, and after its Decode phase. -/
def fetched (p : List Container) : State := doFetch (running p)
def decoded (p : List Container) : State := doDecode (fetched p)

theorem inv_running : (running [0x00011001]).Inv where
  config := by decide
  phase := by decide
  interrupt := rfl
  negative := rfl
  signZero := by decide
  execute := by intro h; cases h
  decode := by intro h; cases h
  stack := by decide
  program := rfl
  dataMemory := by decide

theorem inv_fetched : (fetched [0x00011001]).Inv where
  config := by decide
  phase := by decide
  interrupt := rfl
  negative := rfl
  signZero := by decide
  execute := by intro h; cases h
  decode := fun _ => ⟨rfl, rfl⟩
  stack := by decide
  program := rfl
  dataMemory := by decide

theorem inv_decoded : (decoded [0x00011001]).Inv where
  config := by decide
  phase := by decide
  interrupt := rfl
  negative := rfl
  signZero := by decide
  execute := fun _ => ⟨⟨rfl, rfl, rfl⟩, ⟨rfl, rfl⟩⟩
  decode := by intro h; cases h
  stack := by decide
  program := rfl
  dataMemory := by decide

theorem witness_EveryStepKeepsTheInvariant :
    ((running [0x00011001]).Inv ∧ ∃ t, step (running [0x00011001]) = .next t) ∧
    ((fetched [0x00011001]).Inv ∧ ∃ t, step (fetched [0x00011001]) = .next t) ∧
    ((decoded [0x00011001]).Inv ∧ ∃ t, step (decoded [0x00011001]) = .next t) :=
  ⟨⟨inv_running, _, rfl⟩, ⟨inv_fetched, _, rfl⟩, ⟨inv_decoded, _, rfl⟩⟩

theorem witness_ResetMeetsTheInvariant :
    Config.default.valid = true ∧ ({ maskCfg with pmSize := 1, stackDepth := 0 } : Config).valid = true := by decide

theorem witness_EveryReachableStateMeetsTheInvariant :
    maskCfg.valid = true ∧ Reachable maskCfg (State.resetOf maskCfg) ∧
    ∃ t, runSteps 1 (State.resetOf maskCfg) = .next t ∧ Reachable maskCfg t :=
  ⟨by decide, ⟨0, rfl⟩, _, rfl, 1, rfl⟩

/-- The containers of a program of one LDI. -/
theorem one_ldi (a : Byte) :
    pmRead (running [0x00011001]) a = 0x00011001#32 ∨ pmRead (running [0x00011001]) a = 0x00000000#32 := by
  unfold pmRead
  split
  · have h : (running [0x00011001]).pm.read a.toNat = if a.toNat = 0 then 0x00011001#32 else 0x00000000#32 := rfl
    rw [h]
    split
    · exact .inl rfl
    · exact .inr rfl
  · exact .inr rfl

theorem witness_WellFormedProgramsWithoutStackNeverStop :
    (running [0x00011001]).Inv ∧
    ∀ (a : Byte) (i : Instr), decode (running [0x00011001]).cfg.opcodes (pmRead (running [0x00011001]) a) = .instr i →
      i.usesStack = false ∧ (i.wellFormed = true ∨ (running [0x00011001]).cfg.regOor = .mask5) := by
  refine ⟨inv_running, fun a i h => ?_⟩
  rcases one_ldi a with e | e <;> rw [e] at h <;> cases h <;> exact ⟨rfl, .inl rfl⟩

theorem witness_UnrecognizedOpcodeLeavesNoTrace :
    (executing 0x23 7 9).cfg.valid = true ∧ (executing 0x23 7 9).phase = .execute ∧
    ∀ mn, (executing 0x23 7 9).cfg.opcodes.code mn ≠ (executing 0x23 7 9).opc := ⟨by decide, rfl, unassigned⟩

theorem witness_UnrecognizedOpcodeLoopsForEver :
    (loaded [0x00230000]).valid = true ∧
    ∃ t, runSteps 2 (State.resetOf (loaded [0x00230000])) = .next t ∧ t.phase = .execute ∧
      ∀ mn, (loaded [0x00230000]).opcodes.code mn ≠ t.opc := ⟨by decide, _, rfl, rfl, unassigned⟩

theorem witness_SelfJumpIsAFixedPoint :
    (running [0x001A0000]).cfg.valid = true ∧ atSelfJump (running [0x001A0000]) = true ∧ 3 % 3 = 0 := by decide

theorem witness_MarIsForInspectionOnly :
    (State.reset.cfg.valid = true ∧ State.reset.phase = .fetch) ∧ ∃ t, exec (.call 5) State.reset = .next t :=
  ⟨by decide, _, rfl⟩

theorem witness_InterruptFlagIsInert :
    (executing 0x10 1 2).sr.i = false ∧ ∃ t, step (executing 0x10 1 2) = .next t := ⟨rfl, _, rfl⟩

theorem witness_OnlyAluBackedInstructionsWriteFlags :
    (Instr.clr 5).aluBacked = false ∧ ∃ t, exec (.clr 5) { State.reset with sr := snc } = .next t := ⟨rfl, _, rfl⟩

theorem witness_OnlyControlFlowWritesPc :
    (Instr.push 5).writesPc = false ∧ ∃ t, exec (.push 5) State.reset = .next t := ⟨rfl, _, rfl⟩

theorem witness_DataBanks :
    (regIndex State.reset.cfg 0 = some 0 ∧ regIndex State.reset.cfg 31 = some 31) ∧
    ((∃ t, exec (.out 255 31) State.reset = .next t) ∧ 256 ≤ 256) ∧
    ((∃ t, exec (.sts 0 31) State.reset = .next t) ∧ 255 < 256) :=
  ⟨by decide, ⟨⟨_, rfl⟩, by decide⟩, ⟨⟨_, rfl⟩, by decide⟩⟩

theorem witness_StoreThenLoadReturnsTheByte :
    (with1 31 7).dm.wf = true ∧ regIndex (with1 31 7).cfg 31 = some 31 ∧ regIndex (with1 31 7).cfg 0 = some 0 ∧
    (∃ t, exec (.out 255 31) (with1 31 7) = .next t) ∧ (∃ t, exec (.sts 255 31) (with1 31 7) = .next t) :=
  ⟨rfl, by decide, by decide, ⟨_, rfl⟩, ⟨_, rfl⟩⟩

theorem witness_ProgramMemoryIsReadOnly :
    (∃ t, exec (.sts 0 1) State.reset = .next t) ∧
    ((running [0x00011001]).pm = (running [0x00011001]).cfg.program ∧ ∃ t, step (running [0x00011001]) = .next t) ∧
    ((running [0x00011001]).cfg.valid = true ∧ (running [0x00011001]).phase = .fetch) :=
  ⟨⟨_, rfl⟩, ⟨rfl, _, rfl⟩, by decide⟩

theorem witness_SmallDataMemoryIsRefused : ({ Config.default with dmSize := 511 } : Config).dmSize < 512 := by decide

/-- A Stack one short of STACK_DEPTH = 1, and one that is full. -/
def room : State := under depth1
def full : State := { room with stk := [7] }

theorem witness_StackIsLastInFirstOut :
    room.stk.length < room.cfg.stackDepth ∧ full.stk = [] ++ [7] ∧ (∃ t, push room 7 = .next t) ∧
    (1 < Config.default.stackDepth ∧ (∃ t, push { State.reset with stk := [1] } 7 = .next t) ∧
      0 < [(1 : Byte)].length) ∧
    ((∃ t, pop { State.reset with stk := [1, 2] } (fun _ u => .next u) = .next t) ∧ 0 + 1 < [(1 : Byte), 2].length) :=
  ⟨by decide, rfl, ⟨_, rfl⟩, ⟨by decide, ⟨_, rfl⟩, by decide⟩, ⟨⟨_, rfl⟩, by decide⟩⟩

theorem witness_StackMisuseFaults :
    (full.cfg.stackFaults = .fault ∧ full.cfg.stackDepth ≤ full.stk.length ∧ regIndex full.cfg 31 = some 31) ∧
    (room.cfg.stackFaults = .fault ∧ room.stk = [] ∧ regIndex room.cfg 0 = some 0) := by decide

/-- STACK_FAULTS supplied: a pop of the empty Stack returns 0x55, a push onto a full one loses the oldest byte. -/
def supplied : Config := { depth1 with stackFaults := .supplied ⟨0x55, [], .dropOldest⟩ }

/-- R59: the supplied behaviour in place of the fault. -/
theorem test_supplied_stack :
    supplied.valid = true ∧
    after (exec (.call 5) { under supplied with pc := 0x09, stk := [7] }) flow = some (0x05, [0x09]) ∧
    after (exec .ret (under supplied)) flow = some (0x55, []) := by decide

/-- A supplied pop must leave no more than STACK_DEPTH bytes. -/
theorem test_supplied_too_deep :
    Config.valid { depth1 with stackFaults := .supplied ⟨0, [1, 2], .drop⟩ } = false := by decide

theorem witness_SuppliedStackBehaviour :
    supplied.stackFaults = .supplied ⟨0x55, [], .dropOldest⟩ ∧
    supplied.stackDepth ≤ ({ under supplied with stk := [7] } : State).stk.length ∧
    regIndex supplied 31 = some 31 ∧ (under supplied).stk = [] := by decide

theorem witness_LoadImmediateMoveAndClear :
    regIndex State.reset.cfg 0 = some 0 ∧ regIndex State.reset.cfg 31 = some 31 ∧
    regIndex (under maskCfg).cfg 255 = some 31 := by decide

/-- An instruction completes in a state. -/
def completes (i : Instr) (s : State) : Bool := (after (exec i s) id).isSome

theorem witness_FrameOfRegisterOnlyInstructions :
    ([.ldi 31 1, .mov 1 31, .clr 0, .inp 31 255, .lds 31 255, .lsl 2, .lsr 2].all fun i =>
      completes i State.reset) = true := by decide

theorem witness_FrameOfStoringInstructions :
    ([.out 255 31, .sts 0 31].all fun i => completes i State.reset) = true ∧
    (Instr.out 255 31).storeAddr = some 0x0FF#9 ∧ (Instr.sts 0 31).storeAddr = some 0x100#9 := by decide

theorem witness_CarryAndOverflowFlags :
    ((0xFF : Byte).toNat + (0x00 : Byte).toNat = 255 ∧ (0xFF : Byte).toNat + (0x01 : Byte).toNat = 256) ∧
    ((0x7F : Byte).toInt + (0x01 : Byte).toInt = 128 ∧ (0x80 : Byte).toInt + (0xFF : Byte).toInt = -129) ∧
    ((0x80 : Byte).toInt - (0x01 : Byte).toInt = -129 ∧ (0x7F : Byte).toInt - (0xFF : Byte).toInt = 128) ∧
    (AluOp.xor = .or ∨ AluOp.xor = .and ∨ AluOp.xor = .xor) := by decide

theorem witness_AluBackedInstructions :
    regIndex (with2 0 5 31 9).cfg 0 = some 0 ∧ regIndex (with2 0 5 31 9).cfg 31 = some 31 := by decide

theorem witness_FrameOfAluBackedInstructions :
    ([.ori 1 2, .andi 1 2, .xori 1 2, .or 1 2, .and 1 2, .xor 1 2, .addi 1 2, .subi 1 2, .add 1 2, .sub 1 2, .inc 1,
      .dec 1, .cpi 1 2, .cp 1 2].all fun i => i.aluBacked && completes i State.reset) = true := by decide

theorem witness_CallReturnPushPopAndJump :
    room.stk.length < room.cfg.stackDepth ∧ full.stk = [] ++ [7] ∧ regIndex room.cfg 31 = some 31 ∧
    regIndex full.cfg 0 = some 0 := by decide

theorem witness_ReturnMatchesCall :
    room.stk.length < room.cfg.stackDepth ∧
    ∃ t, exec (.call 5) room = .next t ∧ ({ State.reset with stk := [0] } : State).stk = t.stk :=
  ⟨by decide, _, rfl, rfl⟩

theorem witness_FrameOfStackJumpAndBranchInstructions :
    ([.call 5, .ret, .push 1, .pop 1, .jmp 5, .breq 5, .brne 5, .brge 5, .brgt 5, .brle 5, .brlt 5, .nop].all fun i =>
      (i.writesPc || i.usesStack || i == .nop) && completes i { State.reset with stk := [7] }) = true := by decide

/-- The four borders of the signed difference: 127, -128, 128, -129. -/
theorem witness_SignedBranchesIgnoreOverflow :
    regIndex State.reset.cfg 1 = some 1 ∧ regIndex State.reset.cfg 2 = some 2 ∧
    (∃ t, exec (.cp 1 2) (with2 1 0x7F 2 0x00) = .next t) ∧
    ((0x7F : Byte).toInt - (0x00 : Byte).toInt = 127 ∧ (0x80 : Byte).toInt - (0x00 : Byte).toInt = -128) ∧
    ((0x7F : Byte).toInt - (0xFF : Byte).toInt = 128 ∧ (0x80 : Byte).toInt - (0x01 : Byte).toInt = -129) :=
  ⟨by decide, by decide, ⟨_, rfl⟩, by decide, by decide⟩

theorem witness_ShiftsByOne :
    regIndex (with1 31 0x81).cfg 31 = some 31 ∧ (with1 31 0x81).getReg 31 = 0x81 := by decide

theorem witness_NopHasNoEffect :
    (OpcodeMap.default.valid = true ∧ (0xAB0012CD#32).extractLsb 23 16 = 0x00#8) ∧
    ((running [0x000012AB]).cfg.valid = true ∧ (running [0x000012AB]).phase = .fetch ∧
      (pmRead (running [0x000012AB]) 0).extractLsb 23 16 = 0x00#8) ∧
    (under { Config.default with pmSize := 4 }).cfg.pmSize ≤ (4 : Byte).toNat ∧
    (∀ cell ∈ State.reset.pm, cell.1 ≠ (255 : Byte).toNat) := by decide

theorem witness_ClockEdgePriority : (executing 1 16 1).cfg.valid = true := by decide

theorem witness_PortsShowWhatTheStepDoes :
    ((∃ t, step (executing 0x18 1 0) = .next t) ∧ (ports false (executing 0x18 1 0)).sysRst = false) ∧
    ((∃ t, step (executing 0x23 0 0) = .next t) ∧ (ports false (executing 0x23 0 0)).sysRst = true) :=
  ⟨⟨⟨_, rfl⟩, rfl⟩, ⟨⟨_, rfl⟩, rfl⟩⟩

theorem witness_AluPortIsTheOnlyFlagSource :
    ((∃ t, exec (.inc 4) State.reset = .next t) ∧ (executePorts (.inc 4) State.reset).alu = some ⟨.add, 0, 1⟩) ∧
    ((∃ t, exec (.lsl 4) State.reset = .next t) ∧ (executePorts (.lsl 4) State.reset).alu = none) :=
  ⟨⟨⟨_, rfl⟩, by decide⟩, ⟨⟨_, rfl⟩, rfl⟩⟩

theorem witness_SnapshotShowsTheState :
    (full.stk = [] ++ [7] ∧ room.stk.length = State.reset.stk.length ∧ room.cfg.spOf = []) ∧
    (State.reset.phase = .fetch ∧ (fetched []).phase = .decode ∧ (executing 1 16 1).phase = .execute ∧
      ({ State.reset with phase := .invalid } : State).phase = .invalid) ∧
    (under { Config.default with lastPushedEmpty := some 9 }).cfg.lastPushedEmpty = some 9 ∧
    (under { Config.default with lastPushedEmpty := some 9 }).stk = [] ∧
    inspect (doFetch State.reset) = inspect (fetched []) := ⟨by decide, by decide, by decide, by decide, rfl⟩

/-- R60: the default pointer is the depth, and a table supplies another. -/
theorem test_inspect_stack :
    (inspect { State.reset with stk := [1, 2] }).stackPointer = 2 ∧
    (inspect { under { Config.default with spOf := [255, 254, 253] } with stk := [1, 2] }).stackPointer = 253 := by decide

/-- R30 -/
theorem test_state_codes : [Phase.fetch.code, Phase.decode.code, Phase.execute.code, Phase.invalid.code] = [0, 1, 2, 3] := by
  decide

end Sys2Proof.Tests
end

