-- ==== Sys2Proof/Proofs/NonInterference.lean ====
section
/-! SUPPORT. Non-interference of a handler, said once for any relation between states: related states agree in all a
handler reads, and the writes of handlers keep them related. -/

namespace Sys2Proof.Machine

/-- Both outcomes stop alike, or both go on and their next states are related. -/
inductive RelatedOutcomes (R : State → State → Prop) : Result → Result → Prop
  | next {s t : State} (h : R s t) : RelatedOutcomes R (.next s) (.next t)
  | fault (e : Fault) : RelatedOutcomes R (.fault e) (.fault e)
  | refused (e : Refusal) : RelatedOutcomes R (.refused e) (.refused e)

/-- Outcomes related by the graph of `f` are carried one to the other by `f`. -/
theorem eq_mapNext_of_relatedOutcomes {f : State → State} {o p : Result}
    (h : RelatedOutcomes (fun s t => t = f s) o p) : p = mapNext f o := by
  cases h with
  | next h => rw [h]; rfl
  | fault e => rfl
  | refused e => rfl

/-- The two states agree in everything a handler reads: all but mar, ir, the phase, the decoded fields, Program Memory
and the flags I, N, V and C (10_state.md R26, R28). -/
structure SameReads (s t : State) : Prop where
  cfg : t.cfg = s.cfg
  x : t.x = s.x
  pc : t.pc = s.pc
  dm : t.dm = s.dm
  stk : t.stk = s.stk
  sign : t.sr.s = s.sr.s
  zero : t.sr.z = s.sr.z

/-- Related states look the same to every handler, and the same write to both leaves them related. -/
structure NonInterfering (R : State → State → Prop) : Prop where
  reads {s t : State} : R s t → SameReads s t
  setReg {s t : State} (r : Fin 32) (v : Byte) : R s t → R (s.setReg r v) (t.setReg r v)
  setPc {s t : State} (p : Byte) : R s t → R (s.setPc p) (t.setPc p)
  memWrite {s t : State} (a : DataAddr) (v : Byte) : R s t → R (memWrite s a v) (memWrite t a v)
  setStk {s t : State} (c : List Byte) : R s t → R { s with stk := c } { t with stk := c }
  commitFlags {s t : State} (o : AluOut) : R s t → R (commitFlags s o) (commitFlags t o)

section Operations

variable {R : State → State → Prop} {s t : State} (hR : NonInterfering R) (h : R s t)
include hR h

theorem getReg_of_related (r : Fin 32) : t.getReg r = s.getReg r := getReg_congr (hR.reads h).x r

theorem memRead_of_related (a : DataAddr) : memRead t a = memRead s a := by
  rw [memRead, memRead, (hR.reads h).dm]

theorem setReg_related (r : Fin 32) {v w : Byte} (hw : w = v) :
    RelatedOutcomes R (.next (s.setReg r v)) (.next (t.setReg r w)) := by
  rw [hw]
  exact .next (hR.setReg r v h)

theorem setPc_related (p : Byte) : RelatedOutcomes R (.next (s.setPc p)) (.next (t.setPc p)) := .next (hR.setPc p h)

theorem memWrite_related (a : DataAddr) {v w : Byte} (hw : w = v) :
    RelatedOutcomes R (.next (memWrite s a v)) (.next (memWrite t a w)) := by
  rw [hw]
  exact .next (hR.memWrite a v h)

theorem withReg_related (f : Byte) {k l : Fin 32 → Result} (hk : ∀ r, RelatedOutcomes R (k r) (l r)) :
    RelatedOutcomes R (withReg s f k) (withReg t f l) := by
  unfold withReg
  rw [(hR.reads h).cfg]
  split
  · exact hk _
  · exact .fault _

theorem push_related {v w : Byte} (hw : w = v) : RelatedOutcomes R (push s v) (push t w) := by
  have hsame : pushContents t.cfg t.stk w = pushContents s.cfg s.stk v := by
    rw [hw, (hR.reads h).cfg, (hR.reads h).stk]
  cases hc : pushContents s.cfg s.stk v with
  | none =>
    rw [push_of_none hc, push_of_none (hsame.trans hc)]
    exact .fault _
  | some c =>
    rw [push_of_some hc, push_of_some (hsame.trans hc)]
    exact .next (hR.setStk c h)

theorem pop_related {k : Byte → State → Result} (hk : ∀ v u w, R u w → RelatedOutcomes R (k v u) (k v w)) :
    RelatedOutcomes R (pop s k) (pop t k) := by
  have hsame : popContents t.cfg t.stk = popContents s.cfg s.stk := by
    rw [(hR.reads h).cfg, (hR.reads h).stk]
  cases hc : popContents s.cfg s.stk with
  | none =>
    rw [pop_of_none hc, pop_of_none (hsame.trans hc)]
    exact .fault _
  | some vc =>
    rw [pop_of_some hc, pop_of_some (hsame.trans hc)]
    exact hk _ _ _ (hR.setStk vc.2 h)

theorem aluWrite_related (op : AluOp) (d : Fin 32) {b c : Byte} (hc : c = b) :
    RelatedOutcomes R (aluWrite s op d b) (aluWrite t op d c) := by
  unfold aluWrite
  rw [hc, getReg_of_related hR h]
  exact .next (hR.commitFlags _ (hR.setReg _ _ h))

theorem aluCompare_related (d : Fin 32) {b c : Byte} (hc : c = b) :
    RelatedOutcomes R (aluCompare s d b) (aluCompare t d c) := by
  unfold aluCompare
  rw [hc, getReg_of_related hR h]
  exact .next (hR.commitFlags _ h)

theorem branchIf_related (p : Byte) {b c : Bool} (hc : c = b) :
    RelatedOutcomes R (branchIf b p s) (branchIf c p t) := by
  subst hc
  cases c
  · exact .next h
  · exact setPc_related hR h p

end Operations

theorem andThen_related {R : State → State → Prop} {o p : Result} {k l : State → Result}
    (h : RelatedOutcomes R o p) (hk : ∀ s t, R s t → RelatedOutcomes R (k s) (l t)) :
    RelatedOutcomes R (andThen o k) (andThen p l) := by
  cases h with
  | next h => exact hk _ _ h
  | fault e => exact .fault e
  | refused e => exact .refused e

/-- No handler tells related states apart: it stops alike on both, or leaves related states. -/
theorem exec_related {R : State → State → Prop} (hR : NonInterfering R) {s t : State} (h : R s t) (i : Instr) :
    RelatedOutcomes R (exec i s) (exec i t) := by
  have hreg := getReg_of_related hR h
  have hmem := memRead_of_related hR h
  have hsign := (hR.reads h).sign
  have hzero := (hR.reads h).zero
  cases i with
  | nop => exact .next h
  | ldi d k => exact withReg_related hR h d fun r => setReg_related hR h r rfl
  | mov d f => exact withReg_related hR h d fun r => withReg_related hR h f fun q => setReg_related hR h r (hreg q)
  | clr d => exact withReg_related hR h d fun r => setReg_related hR h r rfl
  | out a f => exact withReg_related hR h f fun q => memWrite_related hR h _ (hreg q)
  | inp d a => exact withReg_related hR h d fun r => setReg_related hR h r (hmem _)
  | sts a f => exact withReg_related hR h f fun q => memWrite_related hR h _ (hreg q)
  | lds d a => exact withReg_related hR h d fun r => setReg_related hR h r (hmem _)
  | ori d k | andi d k | xori d k | addi d k | subi d k =>
    exact withReg_related hR h d fun r => aluWrite_related hR h _ r rfl
  | or d f | and d f | xor d f | add d f | sub d f =>
    exact withReg_related hR h d fun r => withReg_related hR h f fun q => aluWrite_related hR h _ r (hreg q)
  | inc d | dec d => exact withReg_related hR h d fun r => aluWrite_related hR h _ r rfl
  | cpi d k => exact withReg_related hR h d fun r => aluCompare_related hR h r rfl
  | cp d f =>
    exact withReg_related hR h d fun r => withReg_related hR h f fun q => aluCompare_related hR h r (hreg q)
  | call p => exact andThen_related (push_related hR h (hR.reads h).pc) fun _ _ hu => setPc_related hR hu p
  | ret => exact pop_related hR h fun v _ _ hu => setPc_related hR hu v
  | push d => exact withReg_related hR h d fun r => push_related hR h (hreg r)
  | pop d => exact withReg_related hR h d fun r => pop_related hR h fun v _ _ hu => setReg_related hR hu r rfl
  | jmp p => exact setPc_related hR h p
  | breq p => exact branchIf_related hR h p hzero
  | brne p => exact branchIf_related hR h p (by rw [hzero])
  | brge p => exact branchIf_related hR h p (by rw [hsign])
  | brgt p => exact branchIf_related hR h p (by rw [hsign, hzero])
  | brle p => exact branchIf_related hR h p (by rw [hsign, hzero])
  | brlt p => exact branchIf_related hR h p hsign
  | lsl d | lsr d => exact withReg_related hR h d fun r => setReg_related hR h r (by rw [hreg r])

end Sys2Proof.Machine
end

