-- ==== Sys2Proof/Proofs/AddressRegister.lean ====
section
/-! SUPPORT. The memory address register is for inspection only (spec/10_state.md R28). -/

namespace Sys2Proof.Machine

/-- The state with another byte in mar. -/
def State.withMar (m : Byte) (s : State) : State := { s with mar := m }

theorem exec_mar {i : Instr} {s t : State} (h : exec i s = .next t) : t.mar = s.mar := by
  cases exec_effect h <;> rfl

theorem nonInterfering_withMar (m : Byte) : NonInterfering fun s t => t = s.withMar m where
  reads h := by subst h; constructor <;> rfl
  setReg _ _ h := by rw [h]; rfl
  setPc _ h := by rw [h]; rfl
  memWrite _ _ h := by rw [h]; rfl
  setStk _ h := by rw [h]; rfl
  commitFlags _ h := by rw [h]; rfl

theorem exec_withMar (i : Instr) (s : State) (m : Byte) :
    exec i (s.withMar m) = mapNext (State.withMar m) (exec i s) :=
  eq_mapNext_of_relatedOutcomes (exec_related (nonInterfering_withMar m) rfl i)

/-- Settles O28: the Fetch phase by its step lemma, the frame by the shapes of a handler's next state, and the
independence of mar from the non-interference of handlers. -/
theorem marIsForInspectionOnly : Obligations.MarIsForInspectionOnly := by
  refine ⟨?fetch, ?notWritten, ?notRead, ?reset⟩
  case fetch => exact fun s hv hp => ⟨doFetch s, step_of_fetch hv hp, doFetch_mar s⟩
  case notWritten => exact fun _ _ _ h => exec_mar h
  case notRead => exact exec_withMar
  case reset => exact fun _ => rfl

end Sys2Proof.Machine
end

