-- ==== Sys2Proof/Proofs/DataBanks.lean ====
section
/-! SUPPORT. The two banks of Data Memory as OUT, IN, STS and LDS use them (spec/20_memory.md R54). -/

namespace Sys2Proof.Machine

/-! ## Loads and stores through a bank -/

theorem memRead_bank0 (s : State) (a : Byte) : memRead s (bank0 a) = s.dm.read a.toNat := by
  rw [memRead, bank0_toNat]

theorem memRead_bank1 (s : State) (a : Byte) : memRead s (bank1 a) = s.dm.read (a.toNat + 256) := by
  rw [memRead, bank1_toNat]

theorem memWrite_bank0 (s : State) (a v : Byte) :
    memWrite s (bank0 a) v = { s with dm := s.dm.write a.toNat v } := by
  rw [memWrite, bank0_toNat]

theorem memWrite_bank1 (s : State) (a v : Byte) :
    memWrite s (bank1 a) v = { s with dm := s.dm.write (a.toNat + 256) v } := by
  rw [memWrite, bank1_toNat]

/-! ## The four instructions -/

/-- OUT over the shared store (41_data_movement.md R124). -/
theorem exec_out {s : State} {f : Byte} {r : Fin 32} (h : regIndex s.cfg f = some r) (a : Byte) :
    exec (.out a f) s = .next (memWrite s (bank0 a) (s.getReg r)) := withReg_some h _

/-- STS over the shared store (41_data_movement.md R126). -/
theorem exec_sts {s : State} {f : Byte} {r : Fin 32} (h : regIndex s.cfg f = some r) (a : Byte) :
    exec (.sts a f) s = .next (memWrite s (bank1 a) (s.getReg r)) := withReg_some h _

/-- IN over the shared load (41_data_movement.md R125). -/
theorem exec_inp {s : State} {d : Byte} {r : Fin 32} (h : regIndex s.cfg d = some r) (a : Byte) :
    exec (.inp d a) s = .next (s.setReg r (memRead s (bank0 a))) := withReg_some h _

/-- LDS over the shared load (41_data_movement.md R127). -/
theorem exec_lds {s : State} {d : Byte} {r : Fin 32} (h : regIndex s.cfg d = some r) (a : Byte) :
    exec (.lds d a) s = .next (s.setReg r (memRead s (bank1 a))) := withReg_some h _

theorem exec_out_eq_next {a f : Byte} {s t : State} (h : exec (.out a f) s = .next t) :
    ∃ v, t = memWrite s (bank0 a) v := by
  obtain ⟨r, _, h⟩ := withReg_eq_next h
  cases h
  exact ⟨_, rfl⟩

theorem exec_sts_eq_next {a f : Byte} {s t : State} (h : exec (.sts a f) s = .next t) :
    ∃ v, t = memWrite s (bank1 a) v := by
  obtain ⟨r, _, h⟩ := withReg_eq_next h
  cases h
  exact ⟨_, rfl⟩

/-- OUT leaves all of bank 1 as it was. -/
theorem exec_out_bank1 {a f : Byte} {s t : State} {n : Nat} (h : exec (.out a f) s = .next t) (hn : 256 ≤ n) :
    t.dm.read n = s.dm.read n := by
  obtain ⟨v, rfl⟩ := exec_out_eq_next h
  have hlt : a.toNat < 256 := a.isLt
  exact read_write_of_ne _ _ (by rw [bank0_toNat]; omega)

/-- STS leaves all of bank 0 as it was. -/
theorem exec_sts_bank0 {a f : Byte} {s t : State} {n : Nat} (h : exec (.sts a f) s = .next t) (hn : n < 256) :
    t.dm.read n = s.dm.read n := by
  obtain ⟨v, rfl⟩ := exec_sts_eq_next h
  exact read_write_of_ne _ _ (by rw [bank1_toNat]; omega)

/-- Settles O33: each of the four meanings over the shared load or store, whose address is the field or the field plus
256; the bank left alone holds no address the store can name. -/
theorem dataBanks : Obligations.DataBanks := by
  refine ⟨?out, ?sts, ?inp, ?lds, ?bank1Kept, ?bank0Kept⟩
  case out => intro a f s r h; rw [exec_out h, memWrite_bank0]
  case sts => intro a f s r h; rw [exec_sts h, memWrite_bank1]
  case inp => intro d a s r h; rw [exec_inp h, memRead_bank0]; rfl
  case lds => intro d a s r h; rw [exec_lds h, memRead_bank1]; rfl
  case bank1Kept => exact fun _ _ _ _ _ h hn => exec_out_bank1 h hn
  case bank0Kept => exact fun _ _ _ _ _ h hn => exec_sts_bank0 h hn

end Sys2Proof.Machine
end

