-- ==== Sys2Proof/Proofs/ProgramMemory.lean ====
section
/-! SUPPORT. Program Memory is read-only (spec/20_memory.md R69). -/

namespace Sys2Proof.Machine

theorem exec_pm {i : Instr} {s t : State} (h : exec i s = .next t) : t.pm = s.pm := by
  cases exec_effect h <;> rfl

/-- A step leaves Program Memory alone, or is a full reset, which loads PROGRAM (40_control_fsm.md R107). -/
theorem step_pm {s t : State} (h : step s = .next t) : t.pm = s.pm ∨ t.pm = s.cfg.program := by
  obtain ⟨_, hcases⟩ := stepState_eq_next h
  rcases hcases with ⟨_, rfl⟩ | ⟨_, rfl⟩ | ⟨_, rfl⟩ | ⟨_, _, _, rfl⟩ | ⟨_, i, u, _, hexec, rfl⟩
  · exact .inl rfl
  · exact .inl rfl
  · exact .inr rfl
  · exact .inr rfl
  · have hkept : u.pm = s.pm := exec_pm hexec
    exact .inl hkept

theorem pmRead_of_program {s : State} (h : s.pm = s.cfg.program) (a : Byte) :
    pmRead s a = if a.toNat < s.cfg.pmSize then s.cfg.program.read a.toNat else 0x00000000#32 := by
  rw [pmRead, h]

/-- Settles O35: no shape of a handler's next state touches Program Memory, a step that is no full reset leaves it and
PROGRAM alone, and the Fetch phase loads ir from it. -/
theorem programMemoryIsReadOnly : Obligations.ProgramMemoryIsReadOnly := by
  refine ⟨?notWritten, ?kept, ?fetch⟩
  case notWritten => exact fun _ _ _ h => exec_pm h
  case kept =>
    intro s t hprog h
    have hcfg : t.cfg = s.cfg := step_cfg h
    have hpm : t.pm = s.cfg.program := (step_pm h).elim (fun hkept => hkept.trans hprog) id
    exact ⟨by rw [hpm, hcfg], hcfg⟩
  case fetch =>
    intro s hv hp hprog
    exact ⟨doFetch s, step_of_fetch hv hp, by rw [doFetch_ir, pmRead_of_program hprog]⟩

end Sys2Proof.Machine
end

