-- ==== Sys2Proof/Proofs/Stack.lean ====
section
/-! SUPPORT. The Stack is last in, first out (spec/20_memory.md R58). -/

namespace Sys2Proof.Machine

/-- Where the Stack has room, the next state of a push is the one with the byte appended. -/
theorem eq_of_push_of_lt {s t : State} {v : Byte} (hroom : s.stk.length < s.cfg.stackDepth)
    (h : push s v = .next t) : t = { s with stk := s.stk ++ [v] } := by
  rw [push_of_lt v hroom] at h
  cases h
  rfl

/-- The LIFO law: a pop undoes a push that had room. -/
theorem pop_of_push {s t : State} {v : Byte} (hroom : s.stk.length < s.cfg.stackDepth) (h : push s v = .next t)
    (k : Byte → State → Result) : pop t k = k v s := by
  cases eq_of_push_of_lt hroom h
  exact pop_of_eq rfl k

theorem push_getElem? {s t : State} {v : Byte} {j : Nat} (hroom : s.stk.length < s.cfg.stackDepth)
    (h : push s v = .next t) (hj : j < s.stk.length) : t.stk[j]? = s.stk[j]? := by
  cases eq_of_push_of_lt hroom h
  exact List.getElem?_append_left hj

theorem pop_getElem? {s t : State} {j : Nat} (h : pop s (fun _ u => .next u) = .next t)
    (hj : j + 1 < s.stk.length) : t.stk[j]? = s.stk[j]? := by
  rcases List.eq_nil_or_concat' s.stk with hnil | ⟨below, v, hstk⟩
  · rw [hnil] at hj
    exact absurd hj (Nat.not_lt_zero _)
  · rw [pop_of_eq hstk] at h
    cases h
    rw [hstk, List.length_append, List.length_singleton] at hj
    rw [hstk]
    exact (List.getElem?_append_left (Nat.lt_of_succ_lt_succ hj)).symm

/-- Settles O37: a push with room appends, a pop splits the last byte off, and both leave the bytes below the top in
place. -/
theorem stackIsLastInFirstOut : Obligations.StackIsLastInFirstOut := by
  refine ⟨?push, ?pop, ?lifo, ?pushKeeps, ?popKeeps⟩
  case push => exact fun _ v hroom => push_of_lt v hroom
  case pop => exact fun _ _ _ k hstk => pop_of_eq hstk k
  case lifo => exact fun _ _ _ k hroom h => pop_of_push hroom h k
  case pushKeeps => exact fun _ _ _ _ hroom h hj => push_getElem? hroom h hj
  case popKeeps => exact fun _ _ _ h hj => pop_getElem? h hj

end Sys2Proof.Machine
end

