-- ==== Sys2Proof/Proofs/TopByte.lean ====
section
/-! SUPPORT. Bits 31 to 24 of a container, and of ir, never influence behaviour (spec/30_encoding.md R82). -/

namespace Sys2Proof

/-! ## The fields of a container whose top byte is put to 0 -/

@[simp] theorem opcodeField_and_low (c : Container) : opcodeField (c &&& 0x00FFFFFF#32) = opcodeField c := by
  rw [← bytes_both_operands, opcodeField_append]

@[simp] theorem operand1Field_and_low (c : Container) : operand1Field (c &&& 0x00FFFFFF#32) = operand1Field c := by
  rw [← bytes_both_operands, operand1Field_append]

@[simp] theorem operand2Field_and_low (c : Container) : operand2Field (c &&& 0x00FFFFFF#32) = operand2Field c := by
  rw [← bytes_both_operands, operand2Field_append]

theorem decode_and_low (m : OpcodeMap) (c : Container) : decode m (c &&& 0x00FFFFFF#32) = decode m c := by
  simp only [decode, opcodeField_and_low, operand1Field_and_low, operand2Field_and_low]

theorem topByte_append (t o a b : Byte) : BitVec.extractLsb (n := 32) 31 24 (t ++ o ++ a ++ b) = t := by
  apply BitVec.eq_of_getLsbD_eq
  intro j hj
  have hj8 : j < 8 := hj
  simp [getLsbD_bytes, hj8, show ¬24 + j < 8 by omega, show ¬24 + j < 16 by omega, show ¬24 + j < 24 by omega]

theorem encode_topByte (m : OpcodeMap) (i : Instr) : (encode m i).extractLsb 31 24 = 0x00#8 :=
  topByte_append 0x00#8 (m.code i.mnemonic) i.operands.1 i.operands.2

end Sys2Proof

namespace Sys2Proof.Machine

/-! ## A step commutes with erasing the top byte of ir -/

theorem eraseTopByte_eraseTopByte (s : State) : s.eraseTopByte.eraseTopByte = s.eraseTopByte := by
  simp only [State.eraseTopByte, BitVec.and_assoc, BitVec.and_self]

theorem mapNext_eraseTopByte_twice (o : Result) :
    mapNext State.eraseTopByte (mapNext State.eraseTopByte o) = mapNext State.eraseTopByte o := by
  cases o with
  | next s => exact congrArg Host.Outcome.next (eraseTopByte_eraseTopByte s)
  | fault e => rfl
  | refused e => rfl

theorem nonInterfering_eraseTopByte : NonInterfering fun s t => t = s.eraseTopByte where
  reads h := by subst h; constructor <;> rfl
  setReg _ _ h := by rw [h]; rfl
  setPc _ h := by rw [h]; rfl
  memWrite _ _ h := by rw [h]; rfl
  setStk _ h := by rw [h]; rfl
  commitFlags _ h := by rw [h]; rfl

theorem exec_eraseTopByte (i : Instr) (s : State) :
    exec i s.eraseTopByte = mapNext State.eraseTopByte (exec i s) :=
  eq_mapNext_of_relatedOutcomes (exec_related nonInterfering_eraseTopByte rfl i)

/-- The Fetch phase overwrites all of ir (40_control_fsm.md R101). -/
theorem doFetch_eraseTopByte (s : State) : doFetch s.eraseTopByte = doFetch s := rfl

/-- The Decode phase slices the 24 significant bits of ir (40_control_fsm.md R102). -/
theorem doDecode_eraseTopByte (s : State) : doDecode s.eraseTopByte = (doDecode s).eraseTopByte := by
  simp only [doDecode, State.eraseTopByte, opcodeField_and_low, operand1Field_and_low, operand2Field_and_low]

/-- A full reset puts 0 in ir, so its result has nothing left to erase. -/
theorem fullReset_eraseTopByte (s : State) : fullReset s.eraseTopByte = (fullReset s).eraseTopByte := by
  show fullReset s = { fullReset s with ir := 0x00000000#32 &&& 0x00FFFFFF#32 }
  rw [BitVec.zero_and]
  rfl

theorem currentInstr_eraseTopByte (s : State) : currentInstr s.eraseTopByte = currentInstr s := rfl

theorem doExecute_eraseTopByte (s : State) :
    doExecute s.eraseTopByte = mapNext State.eraseTopByte (doExecute s) := by
  unfold doExecute
  rw [currentInstr_eraseTopByte]
  cases currentInstr s with
  | instr i =>
    show andThen (exec i s.eraseTopByte) _ = mapNext _ (andThen (exec i s) _)
    rw [exec_eraseTopByte]
    cases exec i s <;> rfl
  | rejected e => exact congrArg Host.Outcome.next (fullReset_eraseTopByte s)

/-- The top byte of ir decides nothing in a phase: erased before it or not, the outcomes agree but for that byte. -/
theorem phaseAction_eraseTopByte (s : State) :
    mapNext State.eraseTopByte (phaseAction s.eraseTopByte) = mapNext State.eraseTopByte (phaseAction s) := by
  have hphase : s.eraseTopByte.phase = s.phase := rfl
  unfold phaseAction
  rw [hphase]
  cases s.phase with
  | fetch => exact congrArg (mapNext _ <| .next ·) (doFetch_eraseTopByte s)
  | decode =>
    show mapNext _ (.next (doDecode s.eraseTopByte)) = _
    rw [doDecode_eraseTopByte]
    exact mapNext_eraseTopByte_twice (.next (doDecode s))
  | execute =>
    show mapNext _ (doExecute s.eraseTopByte) = _
    rw [doExecute_eraseTopByte, mapNext_eraseTopByte_twice]
  | invalid =>
    show mapNext _ (.next (fullReset s.eraseTopByte)) = _
    rw [fullReset_eraseTopByte]
    exact mapNext_eraseTopByte_twice (.next (fullReset s))

theorem step_eraseTopByte (s : State) :
    mapNext State.eraseTopByte (step s.eraseTopByte) = mapNext State.eraseTopByte (step s) := by
  cases hv : s.cfg.valid with
  | true =>
    have hv' : s.eraseTopByte.cfg.valid = true := hv
    rw [step, step, stepState_of_valid hv, stepState_of_valid hv', phaseAction_eraseTopByte]
  | false =>
    have hv' : s.eraseTopByte.cfg.valid = false := hv
    rw [step, step, stepState_of_invalid hv, stepState_of_invalid hv']

/-- Settles O3: decoding and stepping factor through erasing the top byte, which containers or states that agree below
it have in common; the encoder's top byte is its literal 0, and ir is what the Fetch phase reads. -/
theorem topByteNeverInfluencesBehaviour : Obligations.TopByteNeverInfluencesBehaviour := by
  refine ⟨?decode, ?encode, ?fetch, ?step⟩
  case decode =>
    intro m c c' h
    rw [← decode_and_low m c, h, decode_and_low]
  case encode => exact encode_topByte
  case fetch => exact fun s hv hp => ⟨doFetch s, step_of_fetch hv hp, doFetch_ir s⟩
  case step =>
    intro s c h
    have hsame : State.eraseTopByte { s with ir := c } = s.eraseTopByte := by
      simp only [State.eraseTopByte, h]
    rw [← step_eraseTopByte, hsame, step_eraseTopByte]

end Sys2Proof.Machine
end

