-- ==== Sys2Proof/Proofs/Classification.lean ====
section
/-! SUPPORT. The decoder is total (spec/30_encoding.md R88). -/

namespace Sys2Proof

/-- The opcode byte alone decides: some mnemonic has it and is decoded, or none has and it is rejected by name. -/
theorem decodeFields_cases (m : OpcodeMap) (b op1 op2 : Byte) :
    (∃ mn, m.code mn = b ∧ decodeFields m b op1 op2 = .instr (Instr.ofFields mn op1 op2)) ∨
    ((∀ mn, m.code mn ≠ b) ∧ decodeFields m b op1 op2 = .rejected (.unrecognizedOpcode b)) := by
  cases hl : m.lookup b with
  | some mn => exact .inl ⟨mn, lookup_some hl, by rw [decodeFields, hl]⟩
  | none =>
    have hfree : ∀ mn, m.code mn ≠ b := lookup_none.mp hl
    exact .inr ⟨hfree, decode_of_unassigned hfree op1 op2⟩

end Sys2Proof

namespace Sys2Proof.Machine

/-- Settles O4: the classification by opcode byte at the fields of the container, and the Execute phase on an
unassigned byte. -/
theorem everyContainerIsClassified : Obligations.EveryContainerIsClassified := by
  refine ⟨?classified, ?reset⟩
  case classified => exact fun m c => decodeFields_cases m (opcodeField c) (operand1Field c) (operand2Field c)
  case reset =>
    intro s hv hp hfree
    rw [step_of_execute hv hp, doExecute_of_unassigned hfree]

end Sys2Proof.Machine
end

