-- ==== Sys2Proof/Proofs/ExecutePhase.lean ====
section
/-! SUPPORT. The Execute phase: the step around a handler, what a handler leaves alone, and the model faults it can raise
(spec/40_control_fsm.md R103, R109). -/

namespace Sys2Proof.Machine

/-! ## The step around a handler -/

theorem step_of_exec_next {s t : State} {i : Instr} (hv : s.cfg.valid = true) (hp : s.phase = .execute)
    (hi : currentInstr s = .instr i) (h : exec i s = .next t) : step s = .next (toFetch t) := by
  rw [step_of_execute hv hp, doExecute_of_instr hi, h, andThen_next]

theorem step_of_exec_fault {s : State} {i : Instr} {f : Fault} (hv : s.cfg.valid = true) (hp : s.phase = .execute)
    (hi : currentInstr s = .instr i) (h : exec i s = .fault f) : step s = .fault f := by
  rw [step_of_execute hv hp, doExecute_of_instr hi, h, andThen_fault]

theorem step_of_unassigned {s : State} (hv : s.cfg.valid = true) (hp : s.phase = .execute)
    (hfree : ∀ mn, s.cfg.opcodes.code mn ≠ s.opc) : step s = .next (fullReset s) := by
  rw [step_of_execute hv hp, doExecute_of_unassigned hfree]

/-! ## What a handler can answer -/

/-- The answers the model leaves to a handler `i` in a state `s`: a next state, or one of the model faults of
00_scope.md R9 together with its cause. A refusal is not among them. -/
inductive HandlerAnswer (i : Instr) (s : State) : Result → Prop
  | next (t : State) : HandlerAnswer i s (.next t)
  /-- a register field above 31 (30_encoding.md R90) -/
  | regIndexOutOfRange (hoor : s.cfg.regOor = .fault) (hbad : i.wellFormed = false) :
      HandlerAnswer i s (.fault .regIndexOutOfRange)
  /-- a push onto a full Stack (20_memory.md R59) -/
  | stackOverflow (hsf : s.cfg.stackFaults = .fault) (hfull : s.cfg.stackDepth ≤ s.stk.length)
      (hi : ∃ b, i = .call b ∨ i = .push b) : HandlerAnswer i s (.fault .stackOverflow)
  /-- a pop of an empty Stack (20_memory.md R59) -/
  | stackUnderflow (hsf : s.cfg.stackFaults = .fault) (hempty : s.stk = [])
      (hi : ∃ b, i = .ret ∨ i = .pop b) : HandlerAnswer i s (.fault .stackUnderflow)

theorem wellFormed_eq_false {i : Instr} {f : Byte} (hf : f ∈ i.regFields) (hbad : regFieldOk f = false) :
    i.wellFormed = false :=
  List.all_eq_false.mpr ⟨f, hf, by rw [hbad]; decide⟩

section Operations

variable {i : Instr} {s : State}

theorem withReg_answer {f : Byte} {k : Fin 32 → Result} (hk : ∀ r, HandlerAnswer i s (k r))
    (hf : f ∈ i.regFields := by simp [Instr.regFields]) : HandlerAnswer i s (withReg s f k) := by
  cases hr : regIndex s.cfg f with
  | some r =>
    rw [withReg_some hr]
    exact hk r
  | none =>
    rw [withReg_none hr]
    obtain ⟨hoor, hbad⟩ := regIndex_eq_none hr
    exact .regIndexOutOfRange hoor (wellFormed_eq_false hf hbad)

theorem push_answer (v : Byte) (hi : ∃ b, i = .call b ∨ i = .push b) : HandlerAnswer i s (push s v) := by
  cases hc : pushContents s.cfg s.stk v with
  | some c =>
    rw [push_of_some hc]
    exact .next _
  | none =>
    rw [push_of_none hc]
    obtain ⟨hsf, hfull⟩ := pushContents_eq_none hc
    exact .stackOverflow hsf hfull hi

theorem pop_answer {k : Byte → State → Result} (hi : ∃ b, i = .ret ∨ i = .pop b)
    (hk : ∀ v t, HandlerAnswer i s (k v t)) : HandlerAnswer i s (pop s k) := by
  cases hc : popContents s.cfg s.stk with
  | some vc =>
    rw [pop_of_some hc]
    exact hk _ _
  | none =>
    rw [pop_of_none hc]
    obtain ⟨hsf, hempty⟩ := popContents_eq_none hc
    exact .stackUnderflow hsf hempty hi

theorem andThen_answer {o : Result} {k : State → Result} (ho : HandlerAnswer i s o)
    (hk : ∀ t, HandlerAnswer i s (k t)) : HandlerAnswer i s (andThen o k) := by
  cases ho with
  | next t => exact hk t
  | regIndexOutOfRange hoor hbad => exact .regIndexOutOfRange hoor hbad
  | stackOverflow hsf hfull hi => exact .stackOverflow hsf hfull hi
  | stackUnderflow hsf hempty hi => exact .stackUnderflow hsf hempty hi

end Operations

/-- Every handler answers with a next state, or with a model fault that has its cause. -/
theorem exec_answer (i : Instr) (s : State) : HandlerAnswer i s (exec i s) := by
  cases i with
  | nop | jmp _ | breq _ | brne _ | brge _ | brgt _ | brle _ | brlt _ => exact .next _
  | ldi _ _ | clr _ | out _ _ | inp _ _ | sts _ _ | lds _ _ | lsl _ | lsr _ => exact withReg_answer fun _ => .next _
  | ori _ _ | andi _ _ | xori _ _ | addi _ _ | subi _ _ | inc _ | dec _ | cpi _ _ =>
    exact withReg_answer fun _ => .next _
  | mov _ _ | or _ _ | and _ _ | xor _ _ | add _ _ | sub _ _ | cp _ _ =>
    exact withReg_answer fun _ => withReg_answer fun _ => .next _
  | call p => exact andThen_answer (push_answer s.pc ⟨p, .inl rfl⟩) fun _ => .next _
  | ret =>
    rw [exec_ret]
    exact pop_answer ⟨0x00#8, .inl rfl⟩ fun _ _ => .next _
  | push d => exact withReg_answer fun _ => push_answer _ ⟨d, .inr rfl⟩
  | pop d => exact withReg_answer fun _ => pop_answer ⟨d, .inr rfl⟩ fun _ _ => .next _

/-! ## The obligations -/

/-- Settles O13: the step around the handler of a recognized opcode, the full reset on an unassigned one, and the frame
by the shapes of a handler's next state, none of which names the fields claimed. -/
theorem executePhase : Obligations.ExecutePhase := by
  refine ⟨?handler, ?reset, ?frame⟩
  case handler =>
    intro s mn hv hp hcode
    have hi : currentInstr s = .instr (Instr.ofFields mn s.op1 s.op2) := currentInstr_of_code hv hcode
    exact ⟨fun t h => step_of_exec_next hv hp hi h, fun f h => step_of_exec_fault hv hp hi h⟩
  case reset => exact fun s hv hp hfree => ⟨step_of_unassigned hv hp hfree, fullReset_phase s⟩
  case frame =>
    intro i s t h
    cases exec_effect h <;> exact ⟨rfl, rfl, rfl, rfl, rfl, rfl, rfl, rfl, rfl⟩

/-- Settles O14: the opcode byte is assigned or not, an assigned one's handler answers with a next state or a fault, and
a fault comes with its cause. -/
theorem executePhaseIsTotal : Obligations.ExecutePhaseIsTotal := by
  refine ⟨?outcome, ?cause⟩
  case outcome =>
    intro s hv hp
    rcases decodeFields_cases s.cfg.opcodes s.opc s.op1 s.op2 with ⟨mn, hcode, hi⟩ | ⟨hfree, _⟩
    · cases h : exec (Instr.ofFields mn s.op1 s.op2) s with
      | next t => exact .inl ⟨mn, t, hcode, h, step_of_exec_next hv hp hi h⟩
      | fault f => exact .inr (.inl ⟨mn, f, hcode, h, step_of_exec_fault hv hp hi h⟩)
      | refused r => exact absurd h (exec_not_refused _ s r)
    · exact .inr (.inr ⟨hfree, step_of_unassigned hv hp hfree⟩)
  case cause =>
    intro i s f h
    have hanswer := exec_answer i s
    rw [h] at hanswer
    cases hanswer with
    | regIndexOutOfRange hoor hbad => exact .inl ⟨rfl, hoor, hbad⟩
    | stackOverflow hsf hfull hi => exact .inr (.inl ⟨rfl, hsf, hfull, hi⟩)
    | stackUnderflow hsf hempty hi => exact .inr (.inr ⟨rfl, hsf, hempty, hi⟩)

end Sys2Proof.Machine
end

