-- ==== Sys2Proof/Proofs/DecodePhase.lean ====
section
/-! SUPPORT. The Decode phase (spec/40_control_fsm.md R102). -/

namespace Sys2Proof.Machine

/-- The fields of a container are the bit slices R102 names. -/
theorem doDecode_eq_slices (s : State) :
    doDecode s = { s with
      opc := s.ir.extractLsb 23 16
      op1 := s.ir.extractLsb 15 8
      op2 := s.ir.extractLsb 7 0
      phase := .execute } := rfl

/-- Settles O11: the step at Decode, its three fields written as the slices of ir. -/
theorem decodePhase : Obligations.DecodePhase := by
  intro s hv hp
  rw [step_of_decode hv hp, doDecode_eq_slices]

end Sys2Proof.Machine
end

