-- ==== Sys2Proof/Proofs/AluOutputs.lean ====
section
/-! SUPPORT. The result byte and the flags Z, S and N of the ALU (spec/42_alu.md R132 to R134). -/

namespace Sys2Proof.Machine

/-! ## The result byte -/

theorem alu_add_toNat (a b : Byte) : (alu .add a b).result.toNat = (a.toNat + b.toNat) % 256 := BitVec.toNat_add a b

theorem alu_sub_toNat_of_le {a b : Byte} (h : b.toNat ≤ a.toNat) :
    (alu .sub a b).result.toNat = a.toNat - b.toNat := BitVec.toNat_sub_of_le (BitVec.le_def.mpr h)

/-- A difference that borrows wraps around once. -/
theorem alu_sub_toNat_of_lt {a b : Byte} (h : a.toNat < b.toNat) :
    (alu .sub a b).result.toNat = a.toNat + 256 - b.toNat := by
  have hborrow : (alu .sub a b).result.toNat = 256 - (b.toNat - a.toNat) :=
    BitVec.toNat_sub_of_lt (BitVec.lt_def.mpr h)
  omega

/-- Settles O42: the logic operations and the sum are those of bytes; the difference by whether it borrows. -/
theorem aluResultByte : Obligations.AluResultByte := by
  intro a b
  refine ⟨rfl, rfl, rfl, alu_add_toNat a b, ?difference⟩
  split
  case isTrue h => exact alu_sub_toNat_of_le h
  case isFalse h => exact alu_sub_toNat_of_lt (Nat.lt_of_not_le h)

/-! ## The flags that depend on the result alone -/

theorem alu_z_iff (op : AluOp) (a b : Byte) : (alu op a b).z = true ↔ (alu op a b).result = 0x00#8 := beq_iff_eq

theorem alu_s_eq_bit7 (op : AluOp) (a b : Byte) : (alu op a b).s = (alu op a b).result.getLsbD 7 :=
  BitVec.msb_eq_getLsbD_last (alu op a b).result

/-- Negative mirrors Sign (R134). -/
theorem alu_n_eq_s (op : AluOp) (a b : Byte) : (alu op a b).n = (alu op a b).s := rfl

/-- Settles O43: Z compares the result with 0, S is its most significant bit, and N mirrors S. -/
theorem zeroSignAndNegativeFlags : Obligations.ZeroSignAndNegativeFlags := fun op a b =>
  ⟨alu_z_iff op a b, alu_s_eq_bit7 op a b, (alu_n_eq_s op a b).trans (alu_s_eq_bit7 op a b)⟩

end Sys2Proof.Machine
end

