-- ==== Sys2Proof/Proofs/AluInstructions.lean ====
section
/-! SUPPORT. The 14 ALU-backed instructions (spec/42_alu.md R131, R137 to R151). -/

namespace Sys2Proof.Machine

/-! ## The two ways an instruction uses the ALU, element by element -/

theorem aluWrite_eq (s : State) (op : AluOp) (r : Fin 32) (b : Byte) :
    aluWrite s op r b = .next { s with
      x := s.x.set r (alu op (s.getReg r) b).result
      sr := s.sr.commit (alu op (s.getReg r) b) } := rfl

theorem aluCompare_eq (s : State) (r : Fin 32) (b : Byte) :
    aluCompare s r b = .next { s with sr := s.sr.commit (alu .sub (s.getReg r) b) } := rfl

/-! ## Two register operands (30_encoding.md R90) -/

theorem withReg_withReg_some {s : State} {d f : Byte} {r q : Fin 32} (hd : regIndex s.cfg d = some r)
    (hf : regIndex s.cfg f = some q) (k : Fin 32 → Fin 32 → Result) :
    withReg s d (fun rd => withReg s f fun rs => k rd rs) = k r q := by
  rw [withReg_some hd, withReg_some hf]

/-- Settles O45: the fields select the registers, and the instruction is then the shared write or compare of its
operation. -/
theorem aluBackedInstructions : Obligations.AluBackedInstructions := by
  intro s d f k r q hd hf commit write compare
  have hwrite : ∀ op b, aluWrite s op r b = write op b := fun op b => aluWrite_eq s op r b
  have hcompare : ∀ b, aluCompare s r b = compare b := fun b => aluCompare_eq s r b
  refine ⟨?ori, ?andi, ?xori, ?or, ?and, ?xor, ?addi, ?subi, ?add, ?sub, ?inc, ?dec, ?cpi, ?cp⟩
  case ori | andi | xori | addi | subi | inc | dec => exact (withReg_some hd _).trans (hwrite _ _)
  case or | and | xor | add | sub =>
    exact (withReg_withReg_some hd hf fun rd rs => aluWrite s _ rd (s.getReg rs)).trans (hwrite _ _)
  case cpi => exact (withReg_some hd _).trans (hcompare k)
  case cp =>
    exact (withReg_withReg_some hd hf fun rd rs => aluCompare s rd (s.getReg rs)).trans (hcompare (s.getReg q))

end Sys2Proof.Machine
end

