-- ==== Sys2Proof/Proofs/Nop.lean ====
section
/-! SUPPORT. NOP, and Program Memory that holds nothing else (spec/45_shifts_nop_invalid.md R182). -/

namespace Sys2Proof.Machine

/-! ## The instruction cycle (40_control_fsm.md R112) -/

/-- From Fetch three steps are the Fetch and the Decode phase, and the step at Execute in the state they leave. -/
theorem runSteps_three_of_fetch {s : State} (hv : s.cfg.valid = true) (hp : s.phase = .fetch) :
    runSteps 3 s = doExecute (doDecode (doFetch s)) := by
  have hfetch : step s = .next (doFetch s) := step_of_fetch hv hp
  have hdecode : step (doFetch s) = .next (doDecode (doFetch s)) := step_of_decode hv (doFetch_phase s)
  have hexecute : step (doDecode (doFetch s)) = doExecute (doDecode (doFetch s)) :=
    step_of_execute hv (doDecode_phase _)
  rw [runSteps_succ hfetch, runSteps_succ hdecode, runSteps_one, hexecute]

/-! ## NOP -/

theorem exec_nop (s : State) : exec .nop s = .next s := rfl

/-- Under a valid map the opcode byte 0x00 selects NOP, whatever the operand fields (30_encoding.md R86). -/
theorem decodeFields_zero {m : OpcodeMap} (hm : m.valid = true) (op1 op2 : Byte) :
    decodeFields m 0x00#8 op1 op2 = .instr .nop := by
  rw [← code_nop hm, decode_of_code hm, Instr.ofFields]

theorem decode_of_opcodeField_zero {m : OpcodeMap} (hm : m.valid = true) {c : Container}
    (hc : opcodeField c = 0x00#8) : decode m c = .instr .nop := by
  rw [decode, hc, decodeFields_zero hm]

/-- The Execute phase on the opcode byte 0x00 changes nothing but the phase. -/
theorem doExecute_of_opc_zero {s : State} (hv : s.cfg.valid = true) (hopc : s.opc = 0x00#8) :
    doExecute s = .next (toFetch s) := by
  have hnop : currentInstr s = .instr .nop := by rw [currentInstr, hopc, decodeFields_zero (valid_opcodes hv)]
  rw [doExecute_of_instr hnop, exec_nop, andThen_next]

/-- The whole cycle of a container with opcode byte 0x00. -/
theorem runSteps_three_of_opcodeField_zero {s : State} (hv : s.cfg.valid = true) (hp : s.phase = .fetch)
    (hc : opcodeField (pmRead s s.pc) = 0x00#8) : runSteps 3 s = .next (toFetch (doDecode (doFetch s))) := by
  rw [runSteps_three_of_fetch hv hp]
  exact doExecute_of_opc_zero hv hc

/-! ## Program Memory without a container (20_memory.md R51, R52) -/

theorem pmRead_of_le {s : State} {a : Byte} (h : s.cfg.pmSize ≤ a.toNat) : pmRead s a = 0x00000000#32 :=
  if_neg (Nat.not_lt.mpr h)

theorem pmRead_of_unlisted {s : State} {a : Byte} (h : ∀ cell ∈ s.pm, cell.1 ≠ a.toNat) :
    pmRead s a = 0x00000000#32 := by
  rw [pmRead, read_unlisted s.pm a.toNat h, ite_self]

/-- Settles O53: the handler of NOP does nothing, a valid map gives the byte 0x00 to NOP, the cycle is then its three
phases with no effect of the last, and an address without a container reads as zero. -/
theorem nopHasNoEffect : Obligations.NopHasNoEffect := by
  refine ⟨?handler, ?decodes, ?cycle, ?unfilled⟩
  case handler => exact exec_nop
  case decodes => exact fun m c hm hc => decode_of_opcodeField_zero hm hc
  case cycle =>
    intro s hv hp hc
    rw [runSteps_three_of_opcodeField_zero hv hp hc, doDecode_eq_slices]
    simp only [toFetch, doFetch, hp, hc]
  case unfilled => exact fun s a h => h.elim pmRead_of_le pmRead_of_unlisted

end Sys2Proof.Machine
end

