-- ==== Sys2Proof/Proofs/StepNonInterference.lean ====
section
/-! SUPPORT. Non-interference of a whole step, said once for any relation between states: what the handlers keep
related, the phases around them keep related too (spec/40_control_fsm.md R100). -/

namespace Sys2Proof.Machine

/-- Related states are in the same phase with the same decoded instruction, look the same to every handler, and stay
related through the phases and a full reset. -/
structure NonInterferingStep (R : State → State → Prop) : Prop extends NonInterfering R where
  phase {s t : State} : R s t → t.phase = s.phase
  instr {s t : State} : R s t → currentInstr t = currentInstr s
  fetch {s t : State} : R s t → R (doFetch s) (doFetch t)
  decode {s t : State} : R s t → R (doDecode s) (doDecode t)
  back {s t : State} : R s t → R (toFetch s) (toFetch t)
  reset {s t : State} : R s t → R (fullReset s) (fullReset t)

/-- Outcomes whose next states have the same image under `f` have themselves the same image. -/
theorem mapNext_eq_of_relatedOutcomes {f : State → State} {o p : Result}
    (h : RelatedOutcomes (fun s t => f t = f s) o p) : mapNext f p = mapNext f o := by
  cases h with
  | next h => exact congrArg Host.Outcome.next h
  | fault e => rfl
  | refused e => rfl

section Phases

variable {R : State → State → Prop} {s t : State} (hR : NonInterferingStep R) (h : R s t)
include hR h

theorem doExecute_related : RelatedOutcomes R (doExecute s) (doExecute t) := by
  unfold doExecute
  rw [hR.instr h]
  cases currentInstr s with
  | instr i => exact andThen_related (exec_related hR.toNonInterfering h i) fun _ _ hu => .next (hR.back hu)
  | rejected e => exact .next (hR.reset h)

theorem phaseAction_related : RelatedOutcomes R (phaseAction s) (phaseAction t) := by
  unfold phaseAction
  rw [hR.phase h]
  cases s.phase with
  | fetch => exact .next (hR.fetch h)
  | decode => exact .next (hR.decode h)
  | execute => exact doExecute_related hR h
  | invalid => exact .next (hR.reset h)

/-- No step tells related states apart: it stops alike on both, or leaves related states. -/
theorem step_related : RelatedOutcomes R (step s) (step t) := by
  unfold step stepState underValidConfig
  rw [(hR.reads h).cfg]
  split
  · exact phaseAction_related hR h
  · exact .refused _

end Phases

end Sys2Proof.Machine
end

