-- ==== Sys2Proof/Proofs/InterruptFlag.lean ====
section
/-! SUPPORT. The Interrupt flag is inert (spec/60_exceptions.md R217). -/

namespace Sys2Proof.Machine

/-- The state with the value `b` in SR.I. -/
def State.withInterrupt (b : Bool) (s : State) : State := { s with sr := { s.sr with i := b } }

theorem withInterrupt_withInterrupt (b c : Bool) (s : State) :
    (s.withInterrupt b).withInterrupt c = s.withInterrupt c := rfl

/-! ## Nothing sets it -/

/-- No handler writes SR.I: the commit of the ALU's flags keeps it, and nothing else writes SR (42_alu.md R137). -/
theorem exec_interrupt {i : Instr} {s t : State} (h : exec i s = .next t) : t.sr.i = s.sr.i := by
  cases exec_effect h <;> rfl

theorem step_interrupt {s t : State} (h : step s = .next t) : t.sr.i = s.sr.i ∨ t.sr.i = false := by
  obtain ⟨_, h⟩ := stepState_eq_next h
  rcases h with ⟨_, rfl⟩ | ⟨_, rfl⟩ | ⟨_, rfl⟩ | ⟨_, _, _, rfl⟩ | ⟨_, i, u, _, hexec, rfl⟩
  case inl | inr.inl => exact .inl rfl
  case inr.inr.inl | inr.inr.inr.inl => exact .inr rfl
  case inr.inr.inr.inr =>
    rw [toFetch_sr]
    exact .inl (exec_interrupt hexec)

/-! ## Nothing reads it -/

/-- The two states differ in SR.I at most. -/
def AgreeButForInterrupt (s t : State) : Prop := t.withInterrupt false = s.withInterrupt false

/-- Two states that differ in SR.I at most are one state with the two values of the flag. -/
theorem AgreeButForInterrupt.eq_withInterrupt {s t : State} (h : AgreeButForInterrupt s t) :
    t = s.withInterrupt t.sr.i :=
  calc
    t = (t.withInterrupt false).withInterrupt t.sr.i := rfl
    _ = (s.withInterrupt false).withInterrupt t.sr.i := by rw [h]
    _ = s.withInterrupt t.sr.i := rfl

theorem nonInterferingStep_interrupt : NonInterferingStep AgreeButForInterrupt where
  reads h := by rw [h.eq_withInterrupt]; constructor <;> rfl
  setReg _ _ h := by rw [h.eq_withInterrupt]; rfl
  setPc _ h := by rw [h.eq_withInterrupt]; rfl
  memWrite _ _ h := by rw [h.eq_withInterrupt]; rfl
  setStk _ h := by rw [h.eq_withInterrupt]; rfl
  commitFlags _ h := by rw [h.eq_withInterrupt]; rfl
  phase h := by rw [h.eq_withInterrupt]; rfl
  instr h := by rw [h.eq_withInterrupt]; rfl
  fetch h := by rw [h.eq_withInterrupt]; rfl
  decode h := by rw [h.eq_withInterrupt]; rfl
  back h := by rw [h.eq_withInterrupt]; rfl
  reset h := by rw [h.eq_withInterrupt]; rfl

theorem step_withInterrupt (s : State) (b : Bool) :
    mapNext (State.withInterrupt false) (step (s.withInterrupt b)) =
      mapNext (State.withInterrupt false) (step s) :=
  mapNext_eq_of_relatedOutcomes
    (step_related nonInterferingStep_interrupt (withInterrupt_withInterrupt b false s))

/-- Settles O29: the reset state has the flag cleared, a step keeps it or resets, and the non-interference of a step
says that none reads it. -/
theorem interruptFlagIsInert : Obligations.InterruptFlagIsInert := by
  refine ⟨?reset, ?notSet, ?notRead⟩
  case reset => exact fun _ => rfl
  case notSet => exact fun _ _ hclear h => (step_interrupt h).elim (·.trans hclear) id
  case notRead => exact step_withInterrupt

end Sys2Proof.Machine
end

