-- ==== Sys2Proof/Proofs/UnrecognizedOpcode.lean ====
section
/-! SUPPORT. An unrecognized opcode leaves no trace (spec/60_exceptions.md R212). -/

namespace Sys2Proof.Machine

/-- Settles O25: the step on an unassigned byte is the full reset, whose elements the laws of `fullReset` list. -/
theorem unrecognizedOpcodeLeavesNoTrace : Obligations.UnrecognizedOpcodeLeavesNoTrace := by
  intro s hv hp hfree
  have hreset : step s = .next (fullReset s) := step_of_unassigned hv hp hfree
  exact ⟨fullReset s, hreset, rfl, fullReset_mar s, fullReset_ir s, fullReset_opc s, fullReset_op1 s, fullReset_op2 s,
    fullReset_pc s, fullReset_phase s, fullReset_stk s, getReg_fullReset s, fullReset_dm s⟩

end Sys2Proof.Machine
end

