-- ==== Sys2Proof/Proofs/Encoding.lean ====
section
/-! SUPPORT. Encoding and decoding are inverse on the bits a format uses, for every legal opcode map
(spec/30_encoding.md R81 to R86, R94). -/

namespace Sys2Proof

/-! ## Instructions and their operand fields -/

theorem ofFields_mnemonic_operands (i : Instr) : Instr.ofFields i.mnemonic i.operands.1 i.operands.2 = i := by
  cases i <;> rfl

/-- The operand fields a format keeps of two operand bytes, an ignored one being 0 (R85). -/
def Format.operands : Format → Byte → Byte → Byte × Byte
  | .RI, op1, op2 | .RR, op1, op2 | .AR, op1, op2 | .RA, op1, op2 => (op1, op2)
  | .R, op1, _ | .P, op1, _ => (op1, 0)
  | .N, _, _ => (0, 0)

theorem operands_ofFields (mn : Mnemonic) (op1 op2 : Byte) :
    (Instr.ofFields mn op1 op2).operands = mn.format.operands op1 op2 := by
  cases mn <;> rfl

/-! ## The encoder between fields and bits -/

theorem decode_encode_eq_decodeFields (m : OpcodeMap) (i : Instr) :
    decode m (encode m i) = decodeFields m (m.code i.mnemonic) i.operands.1 i.operands.2 := by
  rw [decode, encode, opcodeField_append, operand1Field_append, operand2Field_append]

theorem decode_encode {m : OpcodeMap} (hm : m.valid = true) (i : Instr) : decode m (encode m i) = .instr i := by
  rw [decode_encode_eq_decodeFields, decode_of_code hm, ofFields_mnemonic_operands]

/-- The bytes a format keeps of a container are the container's used bits. -/
theorem bytes_of_format (f : Format) (c : Container) :
    (0x00#8 ++ opcodeField c ++ (f.operands (operand1Field c) (operand2Field c)).1 ++
      (f.operands (operand1Field c) (operand2Field c)).2 : Container) = c &&& f.usedBits := by
  cases f with
  | RI | RR | AR | RA => exact bytes_both_operands c
  | R | P => exact bytes_first_operand c
  | N => exact bytes_opcode_only c

theorem decode_eq_instr {m : OpcodeMap} {c : Container} {i : Instr} (h : decode m c = .instr i) :
    ∃ mn, m.code mn = opcodeField c ∧ i = Instr.ofFields mn (operand1Field c) (operand2Field c) := by
  rcases decodeFields_cases m (opcodeField c) (operand1Field c) (operand2Field c) with
    ⟨mn, hcode, hinstr⟩ | ⟨_, hrejected⟩
  · exact ⟨mn, hcode, Decoded.instr.inj (h.symm.trans hinstr)⟩
  · exact Decoded.noConfusion (h.symm.trans hrejected)

theorem encode_of_decode {m : OpcodeMap} {c : Container} {i : Instr} (h : decode m c = .instr i) :
    encode m i = c &&& i.mnemonic.format.usedBits := by
  obtain ⟨mn, hcode, rfl⟩ := decode_eq_instr h
  rw [encode, mnemonic_ofFields, operands_ofFields, hcode, bytes_of_format]

/-! ## The default map (R86) -/

theorem default_code_toNat (mn : Mnemonic) : (OpcodeMap.default.code mn).toNat = mn.index.val := by
  cases mn <;> rfl

theorem index_surjective : ∀ n : Fin 35, Mnemonic.all[n.val].index = n := by decide

/-- The default map assigns the places of the table, 0 to 34, and no other byte. -/
theorem default_lookup_isSome_iff (b : Byte) : (OpcodeMap.default.lookup b).isSome = true ↔ b.toNat ≤ 0x22 := by
  constructor
  · intro h
    obtain ⟨mn, hmn⟩ := Option.isSome_iff_exists.mp h
    have hindex : mn.index.val = b.toNat := by rw [← lookup_some hmn, default_code_toNat]
    omega
  · intro h
    have hcode : OpcodeMap.default.code (Mnemonic.all[b.toNat]'(by simp [Mnemonic.all]; omega)) = b := by
      apply BitVec.eq_of_toNat_eq
      rw [default_code_toNat, index_surjective ⟨b.toNat, by omega⟩]
    rw [Option.isSome_iff_ne_none]
    exact fun hnone => lookup_none.mp hnone _ hcode

theorem default_lookup_isNone {n : Nat} (hn : n < 256) :
    (OpcodeMap.default.lookup (BitVec.ofNat 8 n)).isNone = decide (0x22 < n) := by
  have hiff := default_lookup_isSome_iff (BitVec.ofNat 8 n)
  rw [BitVec.toNat_ofNat, Nat.mod_eq_of_lt hn] at hiff
  rw [Bool.eq_iff_iff, decide_eq_true_iff, ← Option.not_isSome, Bool.not_eq_true', ← Bool.not_eq_true, hiff]
  omega

theorem default_unassigned_count :
    ((List.range 256).filter fun n => (OpcodeMap.default.lookup (BitVec.ofNat 8 n)).isNone).length = 221 := by
  have hfilter : (List.range 256).filter (fun n => (OpcodeMap.default.lookup (BitVec.ofNat 8 n)).isNone) =
      (List.range 256).filter fun n => decide (0x22 < n) :=
    List.filter_congr fun n hn => default_lookup_isNone (List.mem_range.mp hn)
  rw [hfilter]
  rfl

/-! ## The obligations -/

/-- Settles O1: the fields of an encoded instruction are its bytes, a legal map looks its opcode byte up as its mnemonic,
and mnemonic and operand fields rebuild the instruction. -/
theorem decodeOfEncodeGivesInstruction : Obligations.DecodeOfEncodeGivesInstruction := fun _ i hm =>
  decode_encode hm i

/-- Settles O2: a decoded instruction is made of the container's own opcode byte and of the operand fields its format
keeps, and these bytes are the used bits. -/
theorem encodeOfDecodedKeepsUsedBits : Obligations.EncodeOfDecodedKeepsUsedBits := fun _ _ _ h => encode_of_decode h

/-- Settles O5: ten closed decodings. -/
theorem exampleContainersDecode : Obligations.ExampleContainersDecode := by
  unfold Obligations.ExampleContainersDecode
  decide

/-- Settles O6: the default code of a mnemonic is its place in the table of 35. -/
theorem defaultMapAssignsTheFirst35Bytes : Obligations.DefaultMapAssignsTheFirst35Bytes :=
  ⟨by decide, default_lookup_isSome_iff, default_unassigned_count⟩

end Sys2Proof
end

