-- ==== Sys2Proof/Proofs/Invariant.lean ====
section
/-! SUPPORT. The invariant of the reachable states (spec/10_state.md R37): it holds after reset and every step keeps
it. -/

namespace Sys2Proof.Machine

/-! ## What a valid configuration gives -/

theorem valid_dmInit {cfg : Config} (h : cfg.valid = true) :
    cfg.dmInit.wf = true ∧ cfg.dmInit.within cfg.dmSize = true := by
  simp only [Config.valid, Bool.and_eq_true] at h
  obtain ⟨⟨_, ⟨_, hwf⟩, hwithin⟩, _⟩ := h
  exact ⟨hwf, hwithin⟩

/-! ## The flags: clauses (c) and the exclusion of S and Z -/

/-- N mirrors S, and S and Z are never both set (42_alu.md R133, R134). -/
structure Status.Coherent (f : Status) : Prop where
  negative : f.n = f.s
  signZero : ¬(f.s = true ∧ f.z = true)

/-- A zero result has bit 7 clear. -/
theorem alu_not_sign_and_zero (op : AluOp) (a b : Byte) : ¬((alu op a b).s = true ∧ (alu op a b).z = true) := by
  rintro ⟨hs, hz⟩
  rw [alu_s_eq_bit7, (alu_z_iff op a b).mp hz] at hs
  exact absurd hs (by decide)

theorem commit_coherent (f : Status) (op : AluOp) (a b : Byte) : (f.commit (alu op a b)).Coherent :=
  ⟨alu_n_eq_s op a b, alu_not_sign_and_zero op a b⟩

theorem effect_coherent {s t : State} (h : Effect s t) (hs : s.sr.Coherent) : t.sr.Coherent := by
  cases h with
  | aluWrite op r a b => exact commit_coherent s.sr op a b
  | aluCompare a b => exact commit_coherent s.sr .sub a b
  | _ => exact hs

theorem effect_frame {s t : State} (h : Effect s t) :
    t.cfg = s.cfg ∧ t.sr.i = s.sr.i ∧ t.pm = s.pm := by
  cases h <;> exact ⟨rfl, rfl, rfl⟩

/-! ## The reset state and the four phases -/

theorem inv_resetOf {cfg : Config} (hv : cfg.valid = true) : (State.resetOf cfg).Inv where
  config := hv
  phase := Phase.noConfusion
  interrupt := rfl
  negative := rfl
  signZero := fun h => Bool.noConfusion h.1
  execute := Phase.noConfusion
  decode := Phase.noConfusion
  stack := Nat.zero_le _
  program := rfl
  dataMemory := valid_dmInit hv

theorem inv_doFetch {s : State} (h : s.Inv) : (doFetch s).Inv where
  config := h.config
  phase := Phase.noConfusion
  interrupt := h.interrupt
  negative := h.negative
  signZero := h.signZero
  execute := Phase.noConfusion
  decode := fun _ => ⟨rfl, rfl⟩
  stack := h.stack
  program := h.program
  dataMemory := h.dataMemory

theorem inv_doDecode {s : State} (h : s.Inv) (hp : s.phase = .decode) : (doDecode s).Inv where
  config := h.config
  phase := Phase.noConfusion
  interrupt := h.interrupt
  negative := h.negative
  signZero := h.signZero
  execute := fun _ => ⟨⟨rfl, rfl, rfl⟩, h.decode hp⟩
  decode := Phase.noConfusion
  stack := h.stack
  program := h.program
  dataMemory := h.dataMemory

/-- The handler and the return to Fetch: every clause is one about an effect of the handler. -/
theorem inv_toFetch_of_effect {s t : State} (h : s.Inv) (he : Effect s t) : (toFetch t).Inv := by
  obtain ⟨hcfg, hi, hpm⟩ := effect_frame he
  have hflags : t.sr.Coherent := effect_coherent he ⟨h.negative, h.signZero⟩
  have hstk : t.stk.length ≤ t.cfg.stackDepth := effect_stack he (valid_stackFaults h.config) h.stack
  have hmem : t.dm.wf = true ∧ t.dm.within t.cfg.dmSize = true :=
    effect_memory he (valid_dmSize h.config) h.dataMemory.1 h.dataMemory.2
  exact {
    config := by rw [toFetch_cfg, hcfg, h.config]
    phase := Phase.noConfusion
    interrupt := hi.trans h.interrupt
    negative := hflags.negative
    signZero := hflags.signZero
    execute := Phase.noConfusion
    decode := Phase.noConfusion
    stack := hstk
    program := by rw [toFetch_pm, toFetch_cfg, hpm, hcfg, h.program]
    dataMemory := hmem }

theorem inv_step {s t : State} (h : s.Inv) (hstep : step s = .next t) : t.Inv := by
  obtain ⟨_, hcases⟩ := stepState_eq_next hstep
  rcases hcases with ⟨_, rfl⟩ | ⟨hp, rfl⟩ | ⟨_, rfl⟩ | ⟨_, _, _, rfl⟩ | ⟨_, i, u, _, hexec, rfl⟩
  · exact inv_doFetch h
  · exact inv_doDecode h hp
  · exact inv_resetOf h.config
  · exact inv_resetOf h.config
  · exact inv_toFetch_of_effect h (exec_effect hexec)

/-! ## Runs -/

/-- What every step keeps, every run keeps. -/
theorem runSteps_keeps {P : State → Prop} (hstep : ∀ s t, P s → step s = .next t → P t) {n : Nat} {s t : State}
    (hs : P s) (h : runSteps n s = .next t) : P t := by
  induction n generalizing s with
  | zero => cases h; exact hs
  | succ n ih =>
    obtain ⟨u, hu, h⟩ := andThen_eq_next h
    exact ih (hstep s u hs hu) h

/-- Settles O21: by what the step can be, the phases and the full reset each rebuilding the invariant, the handler
through the shapes of its next state. -/
theorem everyStepKeepsTheInvariant : Obligations.EveryStepKeepsTheInvariant := fun _ _ => inv_step

/-- Settles O22: the reset state of any valid configuration, the default one among them. -/
theorem resetMeetsTheInvariant : Obligations.ResetMeetsTheInvariant :=
  ⟨inv_resetOf (by decide), fun _ => inv_resetOf⟩

/-- Settles O23: reset meets the invariant and every step of the run keeps it. -/
theorem everyReachableStateMeetsTheInvariant : Obligations.EveryReachableStateMeetsTheInvariant := by
  rintro cfg s hv ⟨n, hrun⟩
  exact runSteps_keeps (P := State.Inv) (fun _ _ => inv_step) (inv_resetOf hv) hrun

end Sys2Proof.Machine
end

