-- ==== Sys2Proof/Proofs/RegisterFields.lean ====
section
/-! SUPPORT. Register fields above 31: the fault and the 5-bit select (spec/30_encoding.md R90). -/

namespace Sys2Proof.Machine

/-! ## The register a field selects -/

theorem low5_toNat (f : Byte) : (f.extractLsb' 0 5).toFin.val = f.toNat % 32 := by
  rw [BitVec.val_toFin, BitVec.extractLsb'_toNat, Nat.shiftRight_zero]

/-- Settles O7: the three cases of `regIndex`. -/
theorem registerFieldSelection : Obligations.RegisterFieldSelection := by
  refine ⟨?inRange, ?fault, ?mask5⟩
  case inRange => exact fun cfg _ h => regIndex_of_lt cfg (Nat.lt_succ_of_le h)
  case fault => exact fun _ _ h hoor => regIndex_of_le_fault h hoor
  case mask5 => exact fun _ f h hoor => ⟨_, regIndex_of_le_mask5 h hoor, low5_toNat f⟩

/-! ## REG_OOR = fault -/

section Fault

variable {s : State} (hoor : s.cfg.regOor = .fault)
include hoor

theorem withReg_of_bad {f : Byte} (hbad : regFieldOk f = false) (k : Fin 32 → Result) :
    withReg s f k = .fault .regIndexOutOfRange := by
  have hge : 32 ≤ f.toNat := by simpa [regFieldOk] using hbad
  exact withReg_none (regIndex_of_le_fault hge hoor) k

theorem withReg_of_bad_singleton {f : Byte} (hbad : [f].all regFieldOk = false) (k : Fin 32 → Result) :
    withReg s f k = .fault .regIndexOutOfRange :=
  withReg_of_bad hoor (by simpa using hbad) k

/-- Of two register fields the first bad one stops the handler (10_state.md R22). -/
theorem withReg_of_bad_pair {d f : Byte} (hbad : [d, f].all regFieldOk = false) (k : Fin 32 → Fin 32 → Result) :
    withReg s d (fun r => withReg s f (k r)) = .fault .regIndexOutOfRange := by
  cases hd : regFieldOk d with
  | false => exact withReg_of_bad hoor hd _
  | true =>
    have hf : regFieldOk f = false := by simpa [hd] using hbad
    have hlt : d.toNat < 32 := by simpa [regFieldOk] using hd
    rw [withReg_some (regIndex_of_lt s.cfg hlt), withReg_of_bad hoor hf]

theorem exec_of_not_wellFormed {i : Instr} (hbad : i.wellFormed = false) :
    exec i s = .fault .regIndexOutOfRange := by
  cases i with
  | nop | call _ | ret | jmp _ | breq _ | brne _ | brge _ | brgt _ | brle _ | brlt _ => cases hbad
  | ldi _ _ | clr _ | out _ _ | inp _ _ | sts _ _ | lds _ _ | lsl _ | lsr _ | push _ | pop _ =>
    exact withReg_of_bad_singleton hoor hbad _
  | ori _ _ | andi _ _ | xori _ _ | addi _ _ | subi _ _ | inc _ | dec _ | cpi _ _ =>
    exact withReg_of_bad_singleton hoor hbad _
  | mov _ _ | or _ _ | and _ _ | xor _ _ | add _ _ | sub _ _ | cp _ _ =>
    exact withReg_of_bad_pair hoor hbad fun _ _ => _

end Fault

theorem exec_ne_regIndexOutOfRange {i : Instr} (s : State) (hwf : i.wellFormed = true) :
    exec i s ≠ .fault .regIndexOutOfRange := by
  intro h
  have hanswer := exec_answer i s
  rw [h] at hanswer
  cases hanswer with
  | regIndexOutOfRange _ hbad => exact Bool.noConfusion (hwf.symm.trans hbad)

/-- Settles O8: a handler looks its register fields up before anything else, and the only cause of the fault is a field
above 31. -/
theorem illFormedInstructionFaults : Obligations.IllFormedInstructionFaults :=
  ⟨fun _ _ hoor hbad => exec_of_not_wellFormed hoor hbad, fun _ s hwf => exec_ne_regIndexOutOfRange s hwf⟩

/-! ## REG_OOR = mask5 -/

theorem low5_and_toNat (f : Byte) : (f &&& 0x1F#8).toNat = f.toNat % 32 := by
  rw [BitVec.toNat_and]
  exact Nat.and_two_pow_sub_one_eq_mod f.toNat 5

theorem low5_and_lt (f : Byte) : (f &&& 0x1F#8).toNat < 32 := by
  rw [low5_and_toNat]
  exact Nat.mod_lt _ (by decide)

@[simp] theorem regFieldOk_low5 (f : Byte) : regFieldOk (f &&& 0x1F#8) = true := decide_eq_true (low5_and_lt f)

/-- Under mask5 a field and its bits 4 to 0 select the same register. -/
theorem regIndex_low5 {cfg : Config} (hoor : cfg.regOor = .mask5) (f : Byte) :
    regIndex cfg (f &&& 0x1F#8) = regIndex cfg f := by
  rw [regIndex_of_lt cfg (low5_and_lt f)]
  by_cases h : f.toNat < 32
  · rw [regIndex_of_lt cfg h]
    exact congrArg some (Fin.ext ((low5_and_toNat f).trans (Nat.mod_eq_of_lt h)))
  · rw [regIndex_of_le_mask5 (Nat.le_of_not_lt h) hoor]
    exact congrArg some (Fin.ext ((low5_and_toNat f).trans (low5_toNat f).symm))

theorem withReg_low5 {s : State} (hoor : s.cfg.regOor = .mask5) (f : Byte) (k : Fin 32 → Result) :
    withReg s f k = withReg s (f &&& 0x1F#8) k := by
  rw [withReg, withReg, regIndex_low5 hoor]

theorem withReg_withReg_low5 {s : State} (hoor : s.cfg.regOor = .mask5) (d f : Byte) (k : Fin 32 → Fin 32 → Result) :
    withReg s d (fun r => withReg s f (k r)) =
      withReg s (d &&& 0x1F#8) fun r => withReg s (f &&& 0x1F#8) (k r) := by
  rw [withReg_low5 hoor d]
  exact congrArg (withReg s _) (funext fun r => withReg_low5 hoor f (k r))

theorem exec_maskRegFields {s : State} (hoor : s.cfg.regOor = .mask5) (i : Instr) :
    exec i s = exec i.maskRegFields s := by
  cases i with
  | nop | call _ | ret | jmp _ | breq _ | brne _ | brge _ | brgt _ | brle _ | brlt _ => rfl
  | ldi d _ | clr d | inp d _ | lds d _ | lsl d | lsr d | push d | pop d => exact withReg_low5 hoor d _
  | out _ f | sts _ f => exact withReg_low5 hoor f _
  | ori d _ | andi d _ | xori d _ | addi d _ | subi d _ | inc d | dec d | cpi d _ => exact withReg_low5 hoor d _
  | mov d f | or d f | and d f | xor d f | add d f | sub d f | cp d f =>
    exact withReg_withReg_low5 hoor d f fun _ _ => _

theorem maskRegFields_wellFormed (i : Instr) : i.maskRegFields.wellFormed = true := by
  cases i <;> simp [Instr.maskRegFields, Instr.wellFormed, Instr.regFields]

/-- Settles O9: a handler sees a register field through the register it selects, and masking does not change that. -/
theorem maskedRegisterFields : Obligations.MaskedRegisterFields := fun i _ hoor =>
  ⟨exec_maskRegFields hoor i, maskRegFields_wellFormed i⟩

end Sys2Proof.Machine
end

