-- ==== Sys2Proof/Proofs/StateMachine.lean ====
section
/-! SUPPORT. The state machine of phases: single steps, resets and the instruction cycle
(spec/40_control_fsm.md R100 to R112, spec/50_interfaces.md R191). -/

namespace Sys2Proof.Machine

/-! ## Single steps -/

theorem step_of_invalid {s : State} (hv : s.cfg.valid = true) (hp : s.phase = .invalid) :
    step s = .next (fullReset s) := by
  rw [step, stepState_of_valid hv, phaseAction, hp]

/-- Settles O10: the step at Fetch, its increment read as a number modulo 256. -/
theorem fetchPhase : Obligations.FetchPhase := fun s hv hp =>
  ⟨s.pc + 0x01#8, BitVec.toNat_add s.pc 0x01#8, step_of_fetch hv hp⟩

/-- Settles O12: the step around the handler of the decoded instruction; no handler refuses. -/
theorem stepRunsTheDecodedInstruction : Obligations.StepRunsTheDecodedInstruction := fun s i hv hp hi =>
  ⟨fun _ h => step_of_exec_next hv hp hi h, fun _ h => step_of_exec_fault hv hp hi h, exec_not_refused i s⟩

/-- Settles O15: three steps are the three phases, and the Execute phase is the handler around which the phase goes
back to Fetch. -/
theorem instructionCycleIsThreeSteps : Obligations.InstructionCycleIsThreeSteps := by
  intro s i hv hp hi
  have hcurrent : currentInstr (doDecode (doFetch s)) = .instr i := hi
  rw [runSteps_three_of_fetch hv hp, doExecute_of_instr hcurrent]
  rfl

/-- Settles O16: the step at the invalid code. -/
theorem invalidStateCodeResets : Obligations.InvalidStateCodeResets := fun s hv hp =>
  ⟨step_of_invalid hv hp, fullReset_phase s⟩

/-! ## The clock edge -/

theorem clockEdge_of_valid {s : State} (hv : s.cfg.valid = true) (inp : EdgeInputs) :
    clockEdge inp s = if inp.rst then .next (fullReset s) else if inp.stepEn then phaseAction s else .next s :=
  if_pos hv

theorem clockEdge_of_not_valid {s : State} (hv : s.cfg.valid = false) (inp : EdgeInputs) :
    clockEdge inp s = .refused .invalidConfiguration :=
  if_neg (by rw [hv]; decide)

/-- Settles O54: the three branches of the clock edge under a valid configuration. -/
theorem clockEdgePriority : Obligations.ClockEdgePriority := by
  intro s hv
  refine ⟨?reset, ?step, ?hold⟩
  case reset => exact fun e => clockEdge_of_valid hv ⟨true, e⟩
  case step => exact (clockEdge_of_valid hv ⟨false, true⟩).trans (stepState_of_valid hv).symm
  case hold => exact clockEdge_of_valid hv ⟨false, false⟩

theorem not_valid_of_dmSize_lt {cfg : Config} (h : cfg.dmSize < 512) : cfg.valid = false := by
  cases hv : cfg.valid with
  | false => rfl
  | true => exact absurd (valid_dmSize hv) (Nat.not_le_of_lt h)

/-- Settles O36: a configuration that small is not valid, and both ways to advance refuse one that is not. -/
theorem smallDataMemoryIsRefused : Obligations.SmallDataMemoryIsRefused := fun _ hsmall =>
  have hv := not_valid_of_dmSize_lt hsmall
  ⟨stepState_of_invalid hv, clockEdge_of_not_valid hv⟩

/-! ## The full reset -/

/-- Settles O19: the elements by the laws of `fullReset`, which looks at the parameters alone; the three causes by the
clock edge and the steps at the invalid code and on an unassigned opcode byte. -/
theorem fullResetRestoresEverything : Obligations.FullResetRestoresEverything := by
  refine ⟨?elements, ?sameParameters, ?idempotent, ?causes⟩
  case elements =>
    intro s
    exact ⟨fullReset_phase s, fullReset_pc s, fullReset_mar s, fullReset_ir s, fullReset_opc s, fullReset_op1 s,
      fullReset_op2 s, getReg_fullReset s, fullReset_sr s, fullReset_stk s, fullReset_dm s, fullReset_pm s,
      fullReset_cfg s⟩
  case sameParameters => exact fun _ _ hcfg => congrArg State.resetOf hcfg
  case idempotent => exact fun _ => rfl
  case causes =>
    intro s hv
    exact ⟨fun e => clockEdge_of_valid hv ⟨true, e⟩, step_of_invalid hv, step_of_unassigned hv⟩

/-- Settles O20: the reset state is a full reset under the default parameters, whose two memories list nothing. -/
theorem stateAfterReset : Obligations.StateAfterReset :=
  ⟨rfl, rfl, getReg_fullReset State.reset, rfl, rfl, rfl, rfl, rfl, rfl, rfl,
    fun a => read_nil a.toNat, fun _ => pmRead_of_unlisted (by intro _ hcell; cases hcell), rfl⟩

end Sys2Proof.Machine
end

