-- ==== Sys2Proof/Proofs/StepInstruction.lean ====
section
/-! SUPPORT. `step_instruction` as a number of steps (spec/40_control_fsm.md R105, R106). -/

namespace Sys2Proof.Machine

/-! ## The phase after a step -/

/-- The phase a step leaves behind (R100, R104). -/
def Phase.succ : Phase → Phase
  | .fetch => .decode
  | .decode => .execute
  | .execute => .fetch
  | .invalid => .fetch

/-- How many steps `step_instruction` takes from a phase (R105). -/
def Phase.stepsToExecute : Phase → Nat
  | .decode => 1
  | .fetch => 2
  | .execute => 3
  | .invalid => 3

/-- A step that does not arrive at Execute comes one nearer to it; one that does was the last. -/
theorem Phase.stepsToExecute_eq (p : Phase) :
    p.stepsToExecute = if p.succ = .execute then 1 else p.succ.stepsToExecute + 1 := by
  cases p <;> rfl

theorem step_phase {s t : State} (h : step s = .next t) : t.phase = s.phase.succ := by
  obtain ⟨_, hcases⟩ := stepState_eq_next h
  rcases hcases with ⟨hp, rfl⟩ | ⟨hp, rfl⟩ | ⟨hp, rfl⟩ | ⟨hp, _, _, rfl⟩ | ⟨hp, _, _, _, _, rfl⟩ <;> rw [hp] <;> rfl

/-! ## `step_instruction` -/

/-- Continuations that agree in the phase a step leaves behind agree after the step. -/
theorem andThen_step_congr {s : State} {k l : State → Result} (h : ∀ t, t.phase = s.phase.succ → k t = l t) :
    andThen (step s) k = andThen (step s) l := by
  cases hstep : step s with
  | next t => exact h t (step_phase hstep)
  | fault f => rfl
  | refused r => rfl

theorem stepUntilExecute_eq_runSteps {fuel : Nat} {s : State} (h : s.phase.stepsToExecute ≤ fuel) :
    stepUntilExecute fuel s = runSteps s.phase.stepsToExecute s := by
  induction fuel generalizing s with
  | zero => cases hp : s.phase <;> rw [hp] at h <;> exact absurd h (Nat.not_succ_le_zero _)
  | succ fuel ih =>
    rw [Phase.stepsToExecute_eq] at h ⊢
    split at h
    · rename_i hlast
      rw [if_pos hlast]
      exact andThen_step_congr fun t ht => if_pos (ht.trans hlast)
    · rename_i hmore
      rw [if_neg hmore]
      refine andThen_step_congr fun t ht => ?_
      rw [← ht] at h hmore ⊢
      exact (if_neg hmore).trans (ih (Nat.le_of_succ_le_succ h))

/-- The call is as many steps as its phase at entry says: fuel 3 is enough from every phase. -/
theorem stepInstruction_eq_runSteps (s : State) : stepInstruction s = runSteps s.phase.stepsToExecute s :=
  stepUntilExecute_eq_runSteps (by cases s.phase <;> decide)

theorem runSteps_phase {n : Nat} {s t : State} (h : runSteps n s = .next t) : t.phase = Phase.succ^[n] s.phase := by
  induction n generalizing s with
  | zero => cases h; rfl
  | succ n ih =>
    obtain ⟨u, hu, h⟩ := andThen_eq_next h
    rw [ih h, step_phase hu, Function.iterate_succ_apply]

theorem stepInstruction_phase {s t : State} (h : stepInstruction s = .next t) : t.phase = .execute := by
  rw [stepInstruction_eq_runSteps] at h
  rw [runSteps_phase h]
  cases s.phase <;> rfl

/-- Settles O17: the call is a number of steps that depends on the phase at entry, and so many steps lead from it to
Execute. -/
theorem stepInstructionEndsAtExecute : Obligations.StepInstructionEndsAtExecute := by
  refine ⟨fun _ _ => stepInstruction_phase, ?execute, ?fetch, ?decode⟩
  case execute | fetch | decode =>
    intro s hp
    rw [stepInstruction_eq_runSteps, hp]
    rfl

/-! ## Calls in a row -/

theorem andThen_stepInstruction_congr {s : State} {k l : State → Result} (h : ∀ t, t.phase = .execute → k t = l t) :
    andThen (stepInstruction s) k = andThen (stepInstruction s) l := by
  cases hcall : stepInstruction s with
  | next t => exact h t (stepInstruction_phase hcall)
  | fault f => rfl
  | refused r => rfl

theorem runInstructions_of_execute {n : Nat} {s : State} (hp : s.phase = .execute) :
    runInstructions n s = runSteps (3 * n) s := by
  induction n generalizing s with
  | zero => rfl
  | succ n ih =>
    calc runInstructions (n + 1) s
      _ = andThen (stepInstruction s) (runInstructions n) := rfl
      _ = andThen (stepInstruction s) (runSteps (3 * n)) := andThen_stepInstruction_congr fun _ => ih
      _ = andThen (runSteps 3 s) (runSteps (3 * n)) := by rw [stepInstruction_eq_runSteps, hp]; rfl
      _ = runSteps (3 + 3 * n) s := (runSteps_add 3 (3 * n) s).symm
      _ = runSteps (3 * (n + 1)) s := by rw [Nat.mul_succ, Nat.add_comm]

/-- Settles O18: the first call is the two steps to Execute, and each later one the three from Execute to Execute. -/
theorem instructionCallsLagOneExecute : Obligations.InstructionCallsLagOneExecute := by
  intro n s hp
  calc runInstructions (n + 1) s
    _ = andThen (stepInstruction s) (runInstructions n) := rfl
    _ = andThen (stepInstruction s) (runSteps (3 * n)) :=
      andThen_stepInstruction_congr fun _ => runInstructions_of_execute
    _ = andThen (runSteps 2 s) (runSteps (3 * n)) := by rw [stepInstruction_eq_runSteps, hp]; rfl
    _ = runSteps (2 + 3 * n) s := (runSteps_add 2 (3 * n) s).symm
    _ = runSteps (3 * n + 2) s := by rw [Nat.add_comm]

end Sys2Proof.Machine
end

