-- ==== Sys2Proof/Proofs/SafeRuns.lean ====
section
/-! SUPPORT. Runs of any length: programs that never stop the machine, and the loops through reset and through a
self-jump (spec/40_control_fsm.md R109, spec/70_reset_and_hazards.md R237, R238). -/

namespace Sys2Proof.Machine

/-! ## Programs that never stop the machine -/

/-- No container of Program Memory is a stack instruction or has a register field that can fault (R59, R90). -/
def State.FaultFree (s : State) : Prop :=
  ∀ (a : Byte) (i : Instr), decode s.cfg.opcodes (pmRead s a) = .instr i →
    i.usesStack = false ∧ (i.wellFormed = true ∨ s.cfg.regOor = .mask5)

/-- Of an instruction without a cause for a model fault the handler answers with a next state. -/
theorem exec_next_of_faultFree {i : Instr} {s : State} (hstk : i.usesStack = false)
    (hreg : i.wellFormed = true ∨ s.cfg.regOor = .mask5) : ∃ t, exec i s = .next t := by
  have hanswer := exec_answer i s
  generalize exec i s = o at hanswer ⊢
  cases hanswer with
  | next t => exact ⟨t, rfl⟩
  | regIndexOutOfRange hoor hbad =>
    rcases hreg with hwf | hmask
    · exact Bool.noConfusion (hwf.symm.trans hbad)
    · exact RegOor.noConfusion (hoor.symm.trans hmask)
  | stackOverflow _ _ hi => obtain ⟨b, rfl | rfl⟩ := hi <;> cases hstk
  | stackUnderflow _ _ hi => obtain ⟨b, rfl | rfl⟩ := hi <;> cases hstk

/-- At Execute the decoded instruction is the one in Program Memory at mar (10_state.md R37 (d)). -/
theorem currentInstr_of_inv {s : State} (h : s.Inv) (hp : s.phase = .execute) :
    currentInstr s = decode s.cfg.opcodes (pmRead s s.mar) := by
  obtain ⟨⟨hopc, hop1, hop2⟩, hir, _⟩ := h.execute hp
  rw [currentInstr, hopc, hop1, hop2, hir, decode]

theorem step_next_of_faultFree {s : State} (h : s.Inv) (hfree : s.FaultFree) : ∃ t, step s = .next t := by
  cases hp : s.phase with
  | fetch => exact ⟨_, step_of_fetch h.config hp⟩
  | decode => exact ⟨_, step_of_decode h.config hp⟩
  | invalid => exact absurd hp h.phase
  | execute =>
    rw [step_of_execute h.config hp]
    cases hi : currentInstr s with
    | rejected e => exact ⟨fullReset s, by rw [doExecute, hi]⟩
    | instr i =>
      obtain ⟨hstk, hreg⟩ := hfree s.mar i ((currentInstr_of_inv h hp).symm.trans hi)
      obtain ⟨t, ht⟩ := exec_next_of_faultFree hstk hreg
      exact ⟨toFetch t, by rw [doExecute_of_instr hi, ht, andThen_next]⟩

/-- The condition is one on Program Memory and the parameters, which the invariant ties to each other. -/
theorem step_faultFree {s t : State} (h : s.Inv) (hfree : s.FaultFree) (hstep : step s = .next t) : t.FaultFree := by
  have hcfg : t.cfg = s.cfg := step_cfg hstep
  have hpm : t.pm = s.pm := by rw [(inv_step h hstep).program, hcfg, h.program]
  intro a i hi
  rw [hcfg, pmRead_congr hpm hcfg] at hi
  rw [hcfg]
  exact hfree a i hi

theorem runSteps_next_of_faultFree {s : State} (h : s.Inv) (hfree : s.FaultFree) : SafeFrom s := by
  intro n
  induction n generalizing s with
  | zero => exact ⟨s, rfl⟩
  | succ n ih =>
    obtain ⟨t, hstep⟩ := step_next_of_faultFree h hfree
    rw [runSteps_succ hstep]
    exact ih (inv_step h hstep) (step_faultFree h hfree hstep)

/-- Settles O24: the invariant and the condition on the program are kept together, and under both every step has a next
state. -/
theorem wellFormedProgramsWithoutStackNeverStop : Obligations.WellFormedProgramsWithoutStackNeverStop := fun _ =>
  runSteps_next_of_faultFree

/-! ## The loop through an unrecognized opcode -/

theorem runSteps_cfg {n : Nat} {s t : State} (h : runSteps n s = .next t) : t.cfg = s.cfg :=
  runSteps_keeps (P := fun u => u.cfg = s.cfg) (fun _ _ hu hstep => (step_cfg hstep).trans hu) rfl h

/-- A run that comes back once comes back every time. -/
theorem runSteps_mul_of_loop {n : Nat} {s : State} (h : runSteps n s = .next s) (m : Nat) :
    runSteps (m * n) s = .next s := by
  induction m with
  | zero => rw [Nat.zero_mul]; rfl
  | succ m ih => rw [Nat.succ_mul, runSteps_add, ih, andThen_next, h]

/-- Settles O26: the step after the k-th is the full reset, so the run of k + 1 steps is a loop at the reset state. -/
theorem unrecognizedOpcodeLoopsForEver : Obligations.UnrecognizedOpcodeLoopsForEver := by
  intro cfg k t hv hrun hp hfree
  have hcfg : t.cfg = cfg := runSteps_cfg hrun
  have hreset : step t = .next (State.resetOf cfg) := by
    rw [← hcfg] at hv hfree ⊢
    exact step_of_unassigned hv hp hfree
  exact runSteps_mul_of_loop (by rw [runSteps_add, hrun, andThen_next, runSteps_one, hreset])

/-! ## The self-jump -/

/-- What R238 (b) says never changes: registers, flags, Data Memory and Stack. -/
structure State.SameContents (s t : State) : Prop where
  x : t.x = s.x
  sr : t.sr = s.sr
  dm : t.dm = s.dm
  stk : t.stk = s.stk

theorem State.SameContents.trans {s t u : State} (h : s.SameContents t) (h' : t.SameContents u) : s.SameContents u :=
  ⟨h'.x.trans h.x, h'.sr.trans h.sr, h'.dm.trans h.dm, h'.stk.trans h.stk⟩

theorem atSelfJump_iff {s : State} :
    atSelfJump s = true ↔ s.phase = .fetch ∧ decode s.cfg.opcodes (pmRead s s.pc) = .instr (.jmp s.pc) := by
  rw [atSelfJump, Bool.and_eq_true, beq_iff_eq, beq_iff_eq]

/-- The state one cycle of a self-jump later. -/
def State.afterSelfJump (s : State) : State := toFetch ((doDecode (doFetch s)).setPc s.pc)

theorem sameContents_afterSelfJump (s : State) : s.SameContents s.afterSelfJump := ⟨rfl, rfl, rfl, rfl⟩

theorem atSelfJump_afterSelfJump {s : State} (h : atSelfJump s = true) : atSelfJump s.afterSelfJump = true :=
  atSelfJump_iff.mpr ⟨rfl, (atSelfJump_iff.mp h).2⟩

/-- One cycle of a self-jump (43_control_flow_stack.md R165). -/
theorem runSteps_three_of_selfJump {s : State} (hv : s.cfg.valid = true) (h : atSelfJump s = true) :
    runSteps 3 s = .next s.afterSelfJump := by
  obtain ⟨hp, hi⟩ := atSelfJump_iff.mp h
  have hcurrent : currentInstr (doDecode (doFetch s)) = .instr (.jmp s.pc) := hi
  rw [runSteps_three_of_fetch hv hp, doExecute_of_instr hcurrent]
  rfl

theorem runSteps_of_selfJump {s : State} (hv : s.cfg.valid = true) (h : atSelfJump s = true) : ∀ n : Nat,
    ∃ t, runSteps n s = .next t ∧ s.SameContents t ∧ (n % 3 = 0 → t.pc = s.pc ∧ atSelfJump t = true)
  | 0 => ⟨s, rfl, ⟨rfl, rfl, rfl, rfl⟩, fun _ => ⟨rfl, h⟩⟩
  | 1 => by
    have hp : s.phase = .fetch := (atSelfJump_iff.mp h).1
    refine ⟨doFetch s, ?_, ⟨rfl, rfl, rfl, rfl⟩, fun hn => absurd hn (by decide)⟩
    rw [runSteps_one, step_of_fetch hv hp]
  | 2 => by
    have hp : s.phase = .fetch := (atSelfJump_iff.mp h).1
    refine ⟨doDecode (doFetch s), ?_, ⟨rfl, rfl, rfl, rfl⟩, fun hn => absurd hn (by decide)⟩
    have hdecode : step (doFetch s) = .next (doDecode (doFetch s)) := step_of_decode hv (doFetch_phase s)
    rw [runSteps_succ (step_of_fetch hv hp), runSteps_one, hdecode]
  | n + 3 => by
    have hv' : s.afterSelfJump.cfg.valid = true := hv
    obtain ⟨t, hrun, hsame, hback⟩ := runSteps_of_selfJump hv' (atSelfJump_afterSelfJump h) n
    refine ⟨t, ?_, (sameContents_afterSelfJump s).trans hsame, fun hn => hback (by omega)⟩
    rw [Nat.add_comm, runSteps_add, runSteps_three_of_selfJump hv h, andThen_next, hrun]

/-- Settles O27: a cycle of the self-jump comes back to a self-jump at the same pc with the same contents, and the two
phases before its end keep them too. -/
theorem selfJumpIsAFixedPoint : Obligations.SelfJumpIsAFixedPoint := by
  intro s n hv h
  obtain ⟨t, hrun, hsame, hback⟩ := runSteps_of_selfJump hv h n
  exact ⟨t, hrun, hsame.x, hsame.sr, hsame.dm, hsame.stk, hback⟩

end Sys2Proof.Machine
end

