-- ==== Sys2Proof/Proofs/UnreadFlags.lean ====
section
/-! SUPPORT. The flags I, N, V and C influence nothing (spec/10_state.md R26). -/

namespace Sys2Proof.Machine

/-- The state with other values in the four flags no instruction reads. -/
def State.withUnreadFlags (i n v c : Bool) (s : State) : State :=
  { s with sr := { s.sr with i := i, n := n, v := v, c := c } }

/-- The two states differ in I, N, V and C at most. -/
def AgreeButForUnreadFlags (s t : State) : Prop := t.eraseUnreadFlags = s.eraseUnreadFlags

/-- Two states that differ in those flags at most are one state with two sets of values of them. -/
theorem AgreeButForUnreadFlags.eq_withUnreadFlags {s t : State} (h : AgreeButForUnreadFlags s t) :
    t = s.withUnreadFlags t.sr.i t.sr.n t.sr.v t.sr.c :=
  calc
    t = t.eraseUnreadFlags.withUnreadFlags t.sr.i t.sr.n t.sr.v t.sr.c := rfl
    _ = s.eraseUnreadFlags.withUnreadFlags t.sr.i t.sr.n t.sr.v t.sr.c := by rw [h]
    _ = s.withUnreadFlags t.sr.i t.sr.n t.sr.v t.sr.c := rfl

theorem nonInterferingStep_unreadFlags : NonInterferingStep AgreeButForUnreadFlags where
  reads h := by rw [h.eq_withUnreadFlags]; constructor <;> rfl
  setReg _ _ h := by rw [h.eq_withUnreadFlags]; rfl
  setPc _ h := by rw [h.eq_withUnreadFlags]; rfl
  memWrite _ _ h := by rw [h.eq_withUnreadFlags]; rfl
  setStk _ h := by rw [h.eq_withUnreadFlags]; rfl
  commitFlags _ h := by rw [h.eq_withUnreadFlags]; rfl
  phase h := by rw [h.eq_withUnreadFlags]; rfl
  instr h := by rw [h.eq_withUnreadFlags]; rfl
  fetch h := by rw [h.eq_withUnreadFlags]; rfl
  decode h := by rw [h.eq_withUnreadFlags]; rfl
  back h := by rw [h.eq_withUnreadFlags]; rfl
  reset h := by rw [h.eq_withUnreadFlags]; rfl

/-- No run tells related states apart: what holds of a step holds of any number of them. -/
theorem runSteps_related {R : State → State → Prop} (hR : NonInterferingStep R) (n : Nat) {s t : State} (h : R s t) :
    RelatedOutcomes R (runSteps n s) (runSteps n t) := by
  induction n generalizing s t with
  | zero => exact .next h
  | succ n ih => exact andThen_related (step_related hR h) fun _ _ => ih

/-- Settles O30: a state and its erased copy are related, and runs keep them related. -/
theorem unreadFlagsInfluenceNothing : Obligations.UnreadFlagsInfluenceNothing := fun n s =>
  have herased : AgreeButForUnreadFlags s s.eraseUnreadFlags := rfl
  mapNext_eq_of_relatedOutcomes (runSteps_related nonInterferingStep_unreadFlags n herased)

end Sys2Proof.Machine
end

