-- ==== Sys2Proof/Proofs/Frames.lean ====
section
/-! SUPPORT. What an instruction leaves unchanged, said once for all 35 in terms of the tables of what an instruction
touches (spec/10_state.md R22, R24, R26; spec/20_memory.md R50, R54). -/

namespace Sys2Proof.Machine

/-- Between `s` and `t` nothing changed but what the tables say the instruction `i` writes. -/
structure Frame (i : Instr) (s t : State) : Prop where
  regs : ∀ r, i.destReg s.cfg ≠ some r → t.getReg r = s.getReg r
  flags : i.aluBacked = false → t.sr = s.sr
  interrupt : t.sr.i = s.sr.i
  pc : i.writesPc = false → t.pc = s.pc
  stk : i.usesStack = false → t.stk = s.stk
  dm : ∀ a : Nat, (∀ ea, i.storeAddr = some ea → a ≠ ea.toNat) → t.dm.read a = s.dm.read a
  mar : t.mar = s.mar
  ir : t.ir = s.ir
  phase : t.phase = s.phase
  opc : t.opc = s.opc
  op1 : t.op1 = s.op1
  op2 : t.op2 = s.op2
  pm : t.pm = s.pm
  cfg : t.cfg = s.cfg

/-! ## The writes an instruction's tables allow keep the frame -/

section Writes

variable {i : Instr} {s t : State}

theorem Frame.refl (i : Instr) (s : State) : Frame i s s :=
  ⟨fun _ _ => rfl, fun _ => rfl, rfl, fun _ => rfl, fun _ => rfl, fun _ _ => rfl, rfl, rfl, rfl, rfl, rfl, rfl, rfl, rfl⟩

theorem Frame.setReg (h : Frame i s t) {r : Fin 32} (hr : i.destReg s.cfg = some r) (v : Byte) :
    Frame i s (t.setReg r v) where
  regs q hq := by
    have hne : r ≠ q := fun heq => hq (heq ▸ hr)
    rw [getReg_setReg_of_ne t v hne, h.regs q hq]
  __ := h

theorem Frame.setPc (h : Frame i s t) (hi : i.writesPc = true) (p : Byte) : Frame i s (t.setPc p) where
  pc hno := Bool.noConfusion (hi.symm.trans hno)
  __ := h

theorem Frame.setStk (h : Frame i s t) (hi : i.usesStack = true) (c : List Byte) :
    Frame i s { t with stk := c } where
  stk hno := Bool.noConfusion (hi.symm.trans hno)
  __ := h

theorem Frame.memWrite (h : Frame i s t) {ea : DataAddr} (hi : i.storeAddr = some ea) (v : Byte) :
    Frame i s (memWrite t ea v) where
  dm a ha := by rw [memWrite_dm, read_write_of_ne _ _ (ha ea hi), h.dm a ha]
  __ := h

theorem Frame.commitFlags (h : Frame i s t) (hi : i.aluBacked = true) (o : AluOut) :
    Frame i s (commitFlags t o) where
  flags hno := Bool.noConfusion (hi.symm.trans hno)
  interrupt := h.interrupt
  __ := h

theorem Frame.branch (hi : i.writesPc = true) {c : Bool} {p : Byte} (h : branchIf c p s = .next t) : Frame i s t := by
  cases h
  cases c with
  | false => exact .refl i s
  | true => exact (Frame.refl i s).setPc hi p

end Writes

/-- Every instruction keeps its frame. -/
theorem exec_frame {i : Instr} {s t : State} (h : exec i s = .next t) : Frame i s t := by
  have keep := Frame.refl i s
  cases i with
  | nop => cases h; exact keep
  | ldi _ _ | clr _ | inp _ _ | lds _ _ | lsl _ | lsr _ =>
    obtain ⟨r, hr, h⟩ := withReg_eq_next h
    cases h
    exact keep.setReg hr _
  | mov _ _ =>
    obtain ⟨r, hr, h⟩ := withReg_eq_next h
    obtain ⟨q, _, h⟩ := withReg_eq_next h
    cases h
    exact keep.setReg hr _
  | out _ _ | sts _ _ =>
    obtain ⟨q, _, h⟩ := withReg_eq_next h
    cases h
    exact keep.memWrite rfl _
  | ori _ _ | andi _ _ | xori _ _ | addi _ _ | subi _ _ | inc _ | dec _ =>
    obtain ⟨r, hr, h⟩ := withReg_eq_next h
    cases h
    exact (keep.setReg hr _).commitFlags rfl _
  | or _ _ | and _ _ | xor _ _ | add _ _ | sub _ _ =>
    obtain ⟨r, hr, h⟩ := withReg_eq_next h
    obtain ⟨q, _, h⟩ := withReg_eq_next h
    cases h
    exact (keep.setReg hr _).commitFlags rfl _
  | cpi _ _ =>
    obtain ⟨r, _, h⟩ := withReg_eq_next h
    cases h
    exact keep.commitFlags rfl _
  | cp _ _ =>
    obtain ⟨r, _, h⟩ := withReg_eq_next h
    obtain ⟨q, _, h⟩ := withReg_eq_next h
    cases h
    exact keep.commitFlags rfl _
  | call p =>
    obtain ⟨u, hu, h⟩ := andThen_eq_next h
    obtain ⟨c, _, rfl⟩ := push_eq_next hu
    cases h
    exact (keep.setStk rfl c).setPc rfl p
  | ret =>
    rw [exec_ret] at h
    obtain ⟨v, c, _, h⟩ := pop_eq_next h
    cases h
    exact (keep.setStk rfl c).setPc rfl v
  | push _ =>
    obtain ⟨r, _, h⟩ := withReg_eq_next h
    obtain ⟨c, _, rfl⟩ := push_eq_next h
    exact keep.setStk rfl c
  | pop _ =>
    obtain ⟨r, hr, h⟩ := withReg_eq_next h
    obtain ⟨v, c, _, h⟩ := pop_eq_next h
    cases h
    exact (keep.setStk rfl c).setReg hr v
  | jmp p => cases h; exact keep.setPc rfl p
  | breq _ | brne _ | brge _ | brgt _ | brle _ | brlt _ => exact Frame.branch rfl h

/-! ## What the frame says of whole classes of instructions -/

section Classes

variable {i : Instr} {s t : State} (h : Frame i s t)
include h

theorem Frame.pmRead (a : Byte) : pmRead t a = pmRead s a := pmRead_congr h.pm h.cfg a

theorem Frame.dm_of_noStore (hi : i.storeAddr = none) (a : Nat) : t.dm.read a = s.dm.read a :=
  h.dm a fun _ hea => absurd (hi.symm.trans hea) nofun

theorem Frame.getReg_of_noDest (hi : i.destField = none) (r : Fin 32) : t.getReg r = s.getReg r :=
  h.regs r (by rw [Instr.destReg, hi]; exact nofun)

end Classes

/-- Settles O31: the flags of the frame. -/
theorem onlyAluBackedInstructionsWriteFlags : Obligations.OnlyAluBackedInstructionsWriteFlags := fun _ _ _ hi h =>
  (exec_frame h).flags hi

/-- Settles O32: the pc of the frame. -/
theorem onlyControlFlowWritesPc : Obligations.OnlyControlFlowWritesPc := fun _ _ _ hi h => (exec_frame h).pc hi

/-- Settles O40: the frame of instructions that by the tables write a register only. -/
theorem frameOfRegisterOnlyInstructions : Obligations.FrameOfRegisterOnlyInstructions := by
  intro i s t hi h
  have hframe := exec_frame h
  have htables : i.aluBacked = false ∧ i.writesPc = false ∧ i.usesStack = false ∧ i.storeAddr = none := by
    obtain ⟨d, k, f, a, rfl | rfl | rfl | rfl | rfl | rfl | rfl⟩ := hi <;> exact ⟨rfl, rfl, rfl, rfl⟩
  obtain ⟨halu, hpc, hstk, hdm⟩ := htables
  exact ⟨hframe.regs, hframe.flags halu, hframe.pc hpc, hframe.mar, hframe.ir, hframe.phase, hframe.opc, hframe.op1,
    hframe.op2, hframe.stk hstk, hframe.dm_of_noStore hdm, hframe.pmRead, hframe.cfg⟩

/-- Settles O41: the frame of instructions that by the tables write one byte of Data Memory only. -/
theorem frameOfStoringInstructions : Obligations.FrameOfStoringInstructions := by
  intro i s t hi h
  have hframe := exec_frame h
  have htables : i.aluBacked = false ∧ i.writesPc = false ∧ i.usesStack = false ∧ i.destField = none := by
    obtain ⟨a, f, rfl | rfl⟩ := hi <;> exact ⟨rfl, rfl, rfl, rfl⟩
  obtain ⟨halu, hpc, hstk, hdest⟩ := htables
  have hdm : ∀ ea, i.storeAddr = some ea → ∀ a : Nat, a ≠ ea.toNat → t.dm.read a = s.dm.read a :=
    fun ea hea a ha => hframe.dm a fun ea' hea' => Option.some.inj (hea.symm.trans hea') ▸ ha
  exact ⟨hdm, hframe.getReg_of_noDest hdest, hframe.flags halu, hframe.pc hpc, hframe.mar, hframe.ir, hframe.phase,
    hframe.opc, hframe.op1, hframe.op2, hframe.stk hstk, hframe.pmRead, hframe.cfg⟩

theorem tables_of_aluBacked {i : Instr} (hi : i.aluBacked = true) :
    i.writesPc = false ∧ i.usesStack = false ∧ i.storeAddr = none := by
  cases i with
  | ori _ _ | andi _ _ | xori _ _ | or _ _ | and _ _ | xor _ _ => exact ⟨rfl, rfl, rfl⟩
  | addi _ _ | subi _ _ | add _ _ | sub _ _ | inc _ | dec _ | cpi _ _ | cp _ _ => exact ⟨rfl, rfl, rfl⟩
  | _ => cases hi

/-- Settles O46: the frame of instructions that by the tables write a register and the flags only. -/
theorem frameOfAluBackedInstructions : Obligations.FrameOfAluBackedInstructions := by
  intro i s t hi h
  have hframe := exec_frame h
  obtain ⟨hpc, hstk, hdm⟩ := tables_of_aluBacked hi
  exact ⟨hframe.regs, hframe.interrupt, hframe.pc hpc, hframe.mar, hframe.ir, hframe.phase, hframe.opc, hframe.op1,
    hframe.op2, hframe.stk hstk, hframe.dm_of_noStore hdm, hframe.pmRead, hframe.cfg⟩

theorem tables_of_control {i : Instr} (hi : i.writesPc = true ∨ i.usesStack = true ∨ i = .nop) :
    i.aluBacked = false ∧ i.storeAddr = none := by
  cases i with
  | call _ | ret | push _ | pop _ | jmp _ | nop => exact ⟨rfl, rfl⟩
  | breq _ | brne _ | brge _ | brgt _ | brle _ | brlt _ => exact ⟨rfl, rfl⟩
  | _ => rcases hi with hi | hi | hi <;> cases hi

/-- Settles O49: the frame of instructions that by the tables write no flag and store nothing. -/
theorem frameOfStackJumpAndBranchInstructions : Obligations.FrameOfStackJumpAndBranchInstructions := by
  intro i s t hi h
  have hframe := exec_frame h
  obtain ⟨halu, hdm⟩ := tables_of_control hi
  exact ⟨hframe.regs, hframe.stk, hframe.pc, hframe.flags halu, hframe.mar, hframe.ir, hframe.phase, hframe.opc,
    hframe.op1, hframe.op2, hframe.dm_of_noStore hdm, hframe.pmRead, hframe.cfg⟩

end Sys2Proof.Machine
end

