-- ==== Sys2Proof/Proofs/Ports.lean ====
section
/-! SUPPORT. The ports to the collaborators show what a step does (spec/50_interfaces.md R193 to R198). -/

namespace Sys2Proof.Machine

/-! ## At most one collaborator -/

theorem portsWithReg_activity (s : State) (f : Byte) {k : Fin 32 → Ports} (hk : ∀ r, (k r).activity ≤ 1) :
    (portsWithReg s f k).activity ≤ 1 := by
  unfold portsWithReg
  split
  · exact hk _
  · exact Nat.zero_le 1

theorem portsAlu_activity (s : State) (op : AluOp) (d b : Byte) : (portsAlu s op d b).activity ≤ 1 :=
  portsWithReg_activity s d fun _ => Nat.le_refl 1

theorem portsAluReg_activity (s : State) (op : AluOp) (d f : Byte) : (portsAluReg s op d f).activity ≤ 1 :=
  portsWithReg_activity s d fun _ => portsWithReg_activity s f fun _ => portsAlu_activity s op d _

theorem executePorts_activity (i : Instr) (s : State) : (executePorts i s).activity ≤ 1 := by
  cases i with
  | nop | ldi _ _ | mov _ _ | clr _ | jmp _ | breq _ | brne _ | brge _ | brgt _ | brle _ | brlt _ | lsl _ | lsr _ =>
    exact Nat.zero_le 1
  | out _ f | sts _ f => exact portsWithReg_activity s f fun _ => Nat.le_refl 1
  | inp d _ | lds d _ | push d | pop d => exact portsWithReg_activity s d fun _ => Nat.le_refl 1
  | ori d k | andi d k | xori d k | addi d k | subi d k | cpi d k => exact portsAlu_activity s _ d k
  | inc d | dec d => exact portsAlu_activity s _ d _
  | or d f | and d f | xor d f | add d f | sub d f | cp d f => exact portsAluReg_activity s _ d f
  | call _ | ret => exact Nat.le_refl 1

/-- Settles O56: reset, Fetch and Decode by their fixed ports, the Execute phase by the instruction's. -/
theorem atMostOneCollaboratorPerStep : Obligations.AtMostOneCollaboratorPerStep := by
  intro rst s
  unfold ports
  cases rst with
  | true => exact Nat.zero_le 1
  | false =>
    cases s.phase with
    | fetch => exact Nat.le_refl 1
    | decode | invalid => exact Nat.zero_le 1
    | execute =>
      cases currentInstr s with
      | instr i => exact executePorts_activity i s
      | rejected e => exact Nat.zero_le 1

/-! ## What the ports of the Execute phase show -/

theorem portsWithReg_some {s : State} {f : Byte} {r : Fin 32} (h : regIndex s.cfg f = some r) (k : Fin 32 → Ports) :
    portsWithReg s f k = k r := by
  rw [portsWithReg, h]

/-- The status register after a step with that activity of the ALU port (42_alu.md R137). -/
def flagsAfter (sr : Status) : Option AluCall → Status
  | some call => sr.commit (alu call.op call.a call.b)
  | none => sr

/-- The ports `p` show what the instruction `i` did to Data Memory, the Stack and the flags between `s` and `t`, and no
reset. -/
structure Shows (i : Instr) (p : Ports) (s t : State) : Prop where
  dm : t.dm = p.dm.apply s.dm
  stk : p.stk.apply s.cfg s.stk = some t.stk
  flags : t.sr = flagsAfter s.sr p.alu
  aluBacked : p.alu.isSome = i.aluBacked
  sysRst : p.sysRst = false

theorem portsAlu_some {s : State} {d : Byte} {r : Fin 32} (hd : regIndex s.cfg d = some r) (op : AluOp) (b : Byte) :
    portsAlu s op d b = { Ports.idle s with alu := some ⟨op, s.getReg r, b⟩ } := portsWithReg_some hd _

theorem portsAluReg_some {s : State} {d f : Byte} {r q : Fin 32} (hd : regIndex s.cfg d = some r)
    (hf : regIndex s.cfg f = some q) (op : AluOp) :
    portsAluReg s op d f = { Ports.idle s with alu := some ⟨op, s.getReg r, s.getReg q⟩ } := by
  rw [portsAluReg, portsWithReg_some hd, portsWithReg_some hf, portsAlu_some hd]

theorem pop_apply {cfg : Config} {stk c : List Byte} {v : Byte} (h : popContents cfg stk = some (v, c)) :
    StkAccess.pop.apply cfg stk = some c := congrArg (Option.map Prod.snd) h

/-- The ports of an instruction that completes show what it did. -/
theorem exec_shows {i : Instr} {s t : State} (h : exec i s = .next t) : Shows i (executePorts i s) s t := by
  cases i with
  | nop | jmp _ => cases h; exact ⟨rfl, rfl, rfl, rfl, rfl⟩
  | ldi _ _ | clr _ | lsl _ | lsr _ =>
    obtain ⟨r, _, h⟩ := withReg_eq_next h
    cases h
    exact ⟨rfl, rfl, rfl, rfl, rfl⟩
  | mov _ _ =>
    obtain ⟨r, _, h⟩ := withReg_eq_next h
    obtain ⟨q, _, h⟩ := withReg_eq_next h
    cases h
    exact ⟨rfl, rfl, rfl, rfl, rfl⟩
  | out _ _ | sts _ _ | inp _ _ | lds _ _ =>
    obtain ⟨r, hr, h⟩ := withReg_eq_next h
    cases h
    rw [executePorts, portsWithReg_some hr]
    exact ⟨rfl, rfl, rfl, rfl, rfl⟩
  | ori _ _ | andi _ _ | xori _ _ | addi _ _ | subi _ _ | inc _ | dec _ | cpi _ _ =>
    obtain ⟨r, hd, h⟩ := withReg_eq_next h
    cases h
    rw [executePorts, portsAlu_some hd]
    exact ⟨rfl, rfl, rfl, rfl, rfl⟩
  | or _ _ | and _ _ | xor _ _ | add _ _ | sub _ _ | cp _ _ =>
    obtain ⟨r, hd, h⟩ := withReg_eq_next h
    obtain ⟨q, hf, h⟩ := withReg_eq_next h
    cases h
    rw [executePorts, portsAluReg_some hd hf]
    exact ⟨rfl, rfl, rfl, rfl, rfl⟩
  | call p =>
    obtain ⟨u, hu, h⟩ := andThen_eq_next h
    obtain ⟨c, hc, rfl⟩ := push_eq_next hu
    cases h
    exact ⟨rfl, hc, rfl, rfl, rfl⟩
  | ret =>
    rw [exec_ret] at h
    obtain ⟨v, c, hc, h⟩ := pop_eq_next h
    cases h
    exact ⟨rfl, pop_apply hc, rfl, rfl, rfl⟩
  | push _ =>
    obtain ⟨r, hr, h⟩ := withReg_eq_next h
    obtain ⟨c, hc, rfl⟩ := push_eq_next h
    rw [executePorts, portsWithReg_some hr]
    exact ⟨rfl, hc, rfl, rfl, rfl⟩
  | pop _ =>
    obtain ⟨r, hr, h⟩ := withReg_eq_next h
    obtain ⟨v, c, hc, h⟩ := pop_eq_next h
    cases h
    rw [executePorts, portsWithReg_some hr]
    exact ⟨rfl, pop_apply hc, rfl, rfl, rfl⟩
  | breq _ | brne _ | brge _ | brgt _ | brle _ | brlt _ =>
    obtain rfl := branchIf_eq_next h
    exact ⟨rfl, rfl, rfl, rfl, rfl⟩

/-- Settles O57: what the ports of a completed instruction show of the flags. -/
theorem aluPortIsTheOnlyFlagSource : Obligations.AluPortIsTheOnlyFlagSource := by
  intro i s t h
  have hshows := exec_shows h
  refine ⟨?call, ?noCall, hshows.aluBacked⟩
  case call => exact fun call hcall => by rw [hshows.flags, hcall, flagsAfter]
  case noCall => exact fun hnone => by rw [hshows.flags, hnone, flagsAfter]

/-! ## The ports of a step -/

theorem ports_of_fetch {s : State} (hp : s.phase = .fetch) :
    ports false s = { Ports.idle s with pmSampled := true } := by
  simp [ports, hp]

theorem ports_of_decode {s : State} (hp : s.phase = .decode) : ports false s = Ports.idle s := by
  simp [ports, hp]

theorem ports_of_invalid {s : State} (hp : s.phase = .invalid) :
    ports false s = { Ports.idle s with sysRst := true } := by
  simp [ports, hp]

theorem ports_of_instr {s : State} {i : Instr} (hp : s.phase = .execute) (hi : currentInstr s = .instr i) :
    ports false s = executePorts i s := by
  simp [ports, hp, hi]

theorem ports_of_rejected {s : State} {e : DecodeError} (hp : s.phase = .execute)
    (hi : currentInstr s = .rejected e) : ports false s = { Ports.idle s with sysRst := true } := by
  simp [ports, hp, hi]

/-- Settles O55: by what the step can be; the Execute phase of an instruction by what its ports show. -/
theorem portsShowWhatTheStepDoes : Obligations.PortsShowWhatTheStepDoes := by
  intro s t h
  obtain ⟨_, hcases⟩ := stepState_eq_next h
  rcases hcases with ⟨hp, rfl⟩ | ⟨hp, rfl⟩ | ⟨hp, rfl⟩ | ⟨hp, e, he, rfl⟩ | ⟨hp, i, u, hi, hexec, rfl⟩
  · rw [ports_of_fetch hp]
    exact ⟨fun _ => ⟨rfl, rfl⟩, nofun⟩
  · rw [ports_of_decode hp]
    exact ⟨fun _ => ⟨rfl, rfl⟩, nofun⟩
  · rw [ports_of_invalid hp]
    exact ⟨nofun, fun _ => rfl⟩
  · rw [ports_of_rejected hp he]
    exact ⟨nofun, fun _ => rfl⟩
  · have hshows := exec_shows hexec
    rw [ports_of_instr hp hi]
    exact ⟨fun _ => ⟨hshows.dm, hshows.stk⟩, fun hrst => Bool.noConfusion (hshows.sysRst.symm.trans hrst)⟩

end Sys2Proof.Machine
end

