-- ==== Sys2Proof/Proofs/DataMovement.lean ====
section
/-! SUPPORT. The data-movement instructions and the shifts, element by element (spec/41_data_movement.md R121 to R127,
spec/45_shifts_nop_invalid.md R180, R181). -/

namespace Sys2Proof.Machine

/-! ## LDI, MOV and CLR -/

/-- Settles O39: the fields select the registers, and the handler writes one of them. -/
theorem loadImmediateMoveAndClear : Obligations.LoadImmediateMoveAndClear := by
  refine ⟨?ldi, ?mov, ?clr⟩
  case ldi => exact fun _ _ _ _ hd => withReg_some hd _
  case mov => exact fun _ _ s _ _ hd hf => withReg_withReg_some hd hf fun rd rs => .next (s.setReg rd (s.getReg rs))
  case clr => exact fun _ _ _ hd => withReg_some hd _

/-! ## Loads after a store -/

theorem exec_inp_of_read {s : State} {d b v : Byte} {r : Fin 32} (h : regIndex s.cfg d = some r)
    (hv : memRead s (bank0 b) = v) : exec (.inp d b) s = .next { s with x := s.x.set r v } := by
  rw [exec_inp h, hv]
  rfl

theorem exec_lds_of_read {s : State} {d b v : Byte} {r : Fin 32} (h : regIndex s.cfg d = some r)
    (hv : memRead s (bank1 b) = v) : exec (.lds d b) s = .next { s with x := s.x.set r v } := by
  rw [exec_lds h, hv]
  rfl

theorem memRead_memWrite_self {s : State} (hwf : s.dm.wf = true) (a : DataAddr) (v : Byte) :
    memRead (memWrite s a v) a = v := read_write_self hwf a.toNat v

theorem memRead_memWrite_of_ne (s : State) {a b : DataAddr} (v : Byte) (h : b.toNat ≠ a.toNat) :
    memRead (memWrite s a v) b = memRead s b := read_write_of_ne s.dm v h

/-- The two banks have no address in common (20_memory.md R54). -/
theorem bank0_ne_bank1 (a b : Byte) : (bank0 a).toNat ≠ (bank1 b).toNat := by
  have hlt : a.toNat < 256 := a.isLt
  rw [bank0_toNat, bank1_toNat]
  omega

theorem memRead_bank0_after_bank0 {s : State} (hwf : s.dm.wf = true) (a b v : Byte) :
    memRead (memWrite s (bank0 a) v) (bank0 b) = if b = a then v else memRead s (bank0 b) := by
  split
  · rename_i heq
    rw [heq, memRead_memWrite_self hwf]
  · rename_i hne
    refine memRead_memWrite_of_ne s v fun heq => hne ?_
    rw [bank0_toNat, bank0_toNat] at heq
    exact BitVec.eq_of_toNat_eq heq

theorem memRead_bank1_after_bank1 {s : State} (hwf : s.dm.wf = true) (a b v : Byte) :
    memRead (memWrite s (bank1 a) v) (bank1 b) = if b = a then v else memRead s (bank1 b) := by
  split
  · rename_i heq
    rw [heq, memRead_memWrite_self hwf]
  · rename_i hne
    refine memRead_memWrite_of_ne s v fun heq => hne ?_
    rw [bank1_toNat, bank1_toNat] at heq
    exact BitVec.eq_of_toNat_eq (Nat.add_right_cancel heq)

/-- Settles O34: a load of the bank stored to by whether the address is the one stored to, a load of the other bank by
the banks having no address in common. -/
theorem storeThenLoadReturnsTheByte : Obligations.StoreThenLoadReturnsTheByte := by
  intro a b d f s t rs rd hwf hf hd
  refine ⟨?out, ?sts⟩
  case out =>
    intro h
    rw [exec_out hf] at h
    cases h
    exact ⟨wf_write hwf _ _, exec_inp_of_read hd (memRead_bank0_after_bank0 hwf a b _),
      exec_lds_of_read hd (memRead_memWrite_of_ne s _ (bank0_ne_bank1 a b).symm)⟩
  case sts =>
    intro h
    rw [exec_sts hf] at h
    cases h
    exact ⟨wf_write hwf _ _, exec_lds_of_read hd (memRead_bank1_after_bank1 hwf a b _),
      exec_inp_of_read hd (memRead_memWrite_of_ne s _ (bank0_ne_bank1 b a))⟩

/-! ## The shifts -/

theorem shiftLeft_one_toNat (v : Byte) : (v <<< 1).toNat = 2 * v.toNat % 256 := by
  rw [BitVec.toNat_shiftLeft, Nat.shiftLeft_eq, Nat.mul_comm]

theorem shiftRight_one_toNat (v : Byte) : (v >>> 1).toNat = v.toNat / 2 := by
  rw [BitVec.toNat_ushiftRight, Nat.shiftRight_eq_div_pow]

/-- Settles O52: the handlers shift by one, which is doubling modulo 256 and halving. -/
theorem shiftsByOne : Obligations.ShiftsByOne := fun _ s r hd =>
  ⟨⟨s.getReg r <<< 1, shiftLeft_one_toNat _, withReg_some hd _⟩,
    ⟨s.getReg r >>> 1, shiftRight_one_toNat _, withReg_some hd _⟩⟩

end Sys2Proof.Machine
end

