-- ==== Sys2Proof/Proofs/StackInstructions.lean ====
section
/-! SUPPORT. CALL, RET, PUSH, POP and JMP where the Stack has room or an entry, and where it has not
(spec/43_control_flow_stack.md R161 to R165, spec/20_memory.md R58, R59). -/

namespace Sys2Proof.Machine

/-- PUSH over the shared push (43_control_flow_stack.md R163). -/
theorem exec_push {s : State} {d : Byte} {r : Fin 32} (h : regIndex s.cfg d = some r) :
    exec (.push d) s = push s (s.getReg r) := withReg_some h _

/-- POP over the shared pop (43_control_flow_stack.md R164). -/
theorem exec_pop {s : State} {d : Byte} {r : Fin 32} (h : regIndex s.cfg d = some r) :
    exec (.pop d) s = pop s fun v t => .next (t.setReg r v) := withReg_some h _

/-- JMP writes pc alone (43_control_flow_stack.md R165). -/
theorem exec_jmp (p : Byte) (s : State) : exec (.jmp p) s = .next (s.setPc p) := rfl

/-! ## Room and entries -/

theorem exec_call_of_lt {s : State} (p : Byte) (hroom : s.stk.length < s.cfg.stackDepth) :
    exec (.call p) s = .next { s with stk := s.stk ++ [s.pc], pc := p } := by
  rw [exec_call, push_of_lt s.pc hroom]
  rfl

theorem exec_ret_of_eq {s : State} {below : List Byte} {v : Byte} (hstk : s.stk = below ++ [v]) :
    exec .ret s = .next { s with stk := below, pc := v } := by
  rw [exec_ret, pop_of_eq hstk]
  rfl

/-- Settles O47: the shared push with room and the shared pop of an entry, in each of the four stack instructions. -/
theorem callReturnPushPopAndJump : Obligations.CallReturnPushPopAndJump := by
  refine ⟨?call, ?ret, ?push, ?pop, exec_jmp⟩
  case call => exact fun p _ hroom => exec_call_of_lt p hroom
  case ret => exact fun _ _ _ hstk => exec_ret_of_eq hstk
  case push =>
    intro d s r hd hroom
    rw [exec_push hd, push_of_lt _ hroom]
  case pop =>
    intro d s r below v hd hstk
    rw [exec_pop hd, pop_of_eq hstk]
    rfl

/-- Settles O48: the CALL leaves pc on top of the Stack, and a RET pops it. -/
theorem returnMatchesCall : Obligations.ReturnMatchesCall := by
  intro p s t u hroom h hstk
  rw [exec_call_of_lt p hroom] at h
  cases h
  exact ⟨rfl, exec_ret_of_eq hstk⟩

/-! ## A misused Stack -/

/-- Settles O38: under STACK_FAULTS = fault the shared push and pop stop, and the instruction stops with them. -/
theorem stackMisuseFaults : Obligations.StackMisuseFaults := by
  intro s hsf
  refine ⟨?call, ?push, ?ret, ?pop⟩
  case call =>
    intro p hfull
    rw [exec_call, push_of_le s.pc hfull hsf, andThen_fault]
  case push =>
    intro d r hd hfull
    rw [exec_push hd, push_of_le _ hfull hsf]
  case ret =>
    intro hempty
    rw [exec_ret, pop_of_nil hempty hsf]
  case pop =>
    intro d r hd hempty
    rw [exec_pop hd, pop_of_nil hempty hsf]

theorem push_of_le_supplied {s : State} {b : StackMisuse} (hsf : s.cfg.stackFaults = .supplied b) (v : Byte)
    (hfull : s.cfg.stackDepth ≤ s.stk.length) :
    push s v = .next { s with stk := fullPush b.fullPush s.stk v } :=
  push_of_some (pushContents_of_le_supplied v hfull hsf)

theorem pop_of_nil_supplied {s : State} {b : StackMisuse} (hsf : s.cfg.stackFaults = .supplied b)
    (hempty : s.stk = []) (k : Byte → State → Result) : pop s k = k b.poppedByte { s with stk := b.poppedStack } :=
  pop_of_some (by rw [hempty, popContents_nil_supplied hsf]) k

/-- The four forms of a push onto a full Stack, as their docstrings say (log entry 8). -/
theorem fullPush_forms (v oldest top : Byte) (l : List Byte) :
    fullPush .drop l v = l ∧ fullPush .dropOldest (oldest :: l) v = l ++ [v] ∧
    fullPush .replaceTop (l ++ [top]) v = l ++ [v] ∧ fullPush .restart (oldest :: l) v = [v] := by
  refine ⟨rfl, rfl, ?replaceTop, rfl⟩
  rw [fullPush, if_neg (List.append_ne_nil_of_right_ne_nil l (List.cons_ne_nil top [])), List.dropLast_concat]

/-- Settles O59: the shared push and pop go on as supplied, and the instruction goes on with them. -/
theorem suppliedStackBehaviour : Obligations.SuppliedStackBehaviour := by
  intro s b hsf
  refine ⟨?call, ?push, ?ret, ?pop, fullPush_forms, fullPush_length⟩
  case call =>
    intro p hfull
    rw [exec_call, push_of_le_supplied hsf s.pc hfull]
    rfl
  case push =>
    intro d r hd hfull
    rw [exec_push hd, push_of_le_supplied hsf _ hfull]
  case ret =>
    intro hempty
    rw [exec_ret, pop_of_nil_supplied hsf hempty]
    rfl
  case pop =>
    intro d r hd hempty
    rw [exec_pop hd, pop_of_nil_supplied hsf hempty]
    rfl

end Sys2Proof.Machine
end

