-- ==== Sys2Proof/Proofs/Branches.lean ====
section
/-! SUPPORT. Carry and overflow, and the conditional branches after a compare (spec/42_alu.md R135, R136,
spec/44_branches.md R170 to R177). -/

namespace Sys2Proof.Machine

/-! ## Carry and overflow -/

theorem alu_add_v_iff (a b : Byte) :
    (alu .add a b).v = true ↔ a.toInt + b.toInt < -128 ∨ 127 < a.toInt + b.toInt := by
  have hover : (alu .add a b).v = a.saddOverflow b := by
    rw [BitVec.saddOverflow_eq]
    rfl
  rw [hover, BitVec.saddOverflow, Bool.or_eq_true, decide_eq_true_iff, decide_eq_true_iff]
  omega

theorem alu_sub_v_iff (a b : Byte) :
    (alu .sub a b).v = true ↔ a.toInt - b.toInt < -128 ∨ 127 < a.toInt - b.toInt := by
  have hover : (alu .sub a b).v = a.ssubOverflow b := by
    rw [BitVec.ssubOverflow_eq]
    show (a.msb != b.msb && (a - b).msb != a.msb) = _
    cases a.msb <;> cases b.msb <;> cases (a - b).msb <;> rfl
  rw [hover, BitVec.ssubOverflow, Bool.or_eq_true, decide_eq_true_iff, decide_eq_true_iff]
  omega

/-- Settles O44: C is the decided comparison, V the library's signed overflow, and a logic operation has neither. -/
theorem carryAndOverflowFlags : Obligations.CarryAndOverflowFlags := by
  intro a b
  refine ⟨decide_eq_true_iff, decide_eq_true_iff, alu_add_v_iff a b, alu_sub_v_iff a b, ?logic⟩
  rintro op (rfl | rfl | rfl) <;> exact ⟨rfl, rfl⟩

/-! ## The flags of a compare -/

theorem alu_sub_z (a b : Byte) : (alu .sub a b).z = decide (a.toInt = b.toInt) := by
  rw [Bool.eq_iff_iff, alu_z_iff, decide_eq_true_iff, BitVec.toInt_inj]
  exact sub_eq_zero

/-- S of a compare is the sign of the difference taken modulo 256. -/
theorem alu_sub_s (a b : Byte) : (alu .sub a b).s = decide ((a.toInt - b.toInt).bmod 256 < 0) := by
  show (a - b).msb = _
  rw [BitVec.msb_eq_toInt, BitVec.toInt_sub]

theorem alu_sub_s_of_inRange {a b : Byte} (h : -128 ≤ a.toInt - b.toInt ∧ a.toInt - b.toInt ≤ 127) :
    (alu .sub a b).s = decide (a.toInt < b.toInt) := by
  rw [alu_sub_s, Int.bmod_eq_of_le (by omega) (by omega), decide_eq_decide]
  omega

/-- A difference out of range comes back with the opposite sign. -/
theorem alu_sub_s_of_overflow {a b : Byte} (h : ¬(-128 ≤ a.toInt - b.toInt ∧ a.toInt - b.toInt ≤ 127)) :
    (alu .sub a b).s = decide (b.toInt < a.toInt) := by
  have ha : -128 ≤ a.toInt ∧ a.toInt < 128 := ⟨a.le_toInt, a.toInt_lt⟩
  have hb : -128 ≤ b.toInt ∧ b.toInt < 128 := ⟨b.le_toInt, b.toInt_lt⟩
  rw [alu_sub_s, decide_eq_decide, Int.bmod]
  split <;> omega

/-! ## The branches -/

/-- A branch jumps or keeps pc, element by element. -/
theorem branchIf_eq (taken : Bool) (p : Byte) (s : State) :
    branchIf taken p s = .next { s with pc := if taken then p else s.pc } := by
  cases taken <;> rfl

/-- Settles O50: each branch is the shared one under its condition. -/
theorem branchConditions : Obligations.BranchConditions := fun p s =>
  ⟨branchIf_eq _ p s, branchIf_eq _ p s, branchIf_eq _ p s, branchIf_eq _ p s, branchIf_eq _ p s, branchIf_eq _ p s⟩

theorem exec_cp_sr {s t : State} {d f : Byte} {r q : Fin 32} (hd : regIndex s.cfg d = some r)
    (hf : regIndex s.cfg f = some q) (h : exec (.cp d f) s = .next t) :
    t.sr = s.sr.commit (alu .sub (s.getReg r) (s.getReg q)) := by
  have hcp : exec (.cp d f) s = aluCompare s r (s.getReg q) :=
    withReg_withReg_some hd hf fun rd rs => aluCompare s rd (s.getReg rs)
  rw [aluCompare_eq_next (hcp.symm.trans h), commitFlags_sr]

/-- The signed conditions, where S says that `a` is less than `b` and Z that they are equal. -/
theorem signed_conditions {sign zero : Bool} {a b : Int} (hsign : sign = decide (a < b)) (hzero : zero = decide (a = b)) :
    (!sign) = decide (b ≤ a) ∧ (!sign && !zero) = decide (b < a) ∧ (sign || zero) = decide (a ≤ b) := by
  subst hsign hzero
  refine ⟨?ge, ?gt, ?le⟩
  case ge => rw [← decide_not, decide_eq_decide]; omega
  case gt => rw [← decide_not, ← decide_not, ← Bool.decide_and, decide_eq_decide]; omega
  case le => rw [← Bool.decide_or, decide_eq_decide]; omega

/-- Settles O51: Z of the compare is equality, S the signed order or on overflow its opposite; the branches combine
them. -/
theorem signedBranchesIgnoreOverflow : Obligations.SignedBranchesIgnoreOverflow := by
  intro d f p s t r q hd hf h a b goTo
  have hsr : t.sr = s.sr.commit (alu .sub (s.getReg r) (s.getReg q)) := exec_cp_sr hd hf h
  have hzero : t.sr.z = decide (a = b) := by rw [hsr, commit_z, alu_sub_z]
  obtain ⟨hbreq, hbrne, hbrge, hbrgt, hbrle, hbrlt⟩ := branchConditions p t
  refine ⟨hbreq.trans (congrArg goTo hzero), hbrne.trans (congrArg goTo ?notEqual), ?inRange, ?overflow⟩
  case notEqual => rw [hzero, decide_not]
  case inRange =>
    intro hrange
    have hsign : t.sr.s = decide (a < b) := by rw [hsr, commit_s, alu_sub_s_of_inRange hrange]
    obtain ⟨hge, hgt, hle⟩ := signed_conditions hsign hzero
    exact ⟨hbrlt.trans (congrArg goTo hsign), hbrge.trans (congrArg goTo hge), hbrgt.trans (congrArg goTo hgt),
      hbrle.trans (congrArg goTo hle)⟩
  case overflow =>
    intro hover
    have hsign : t.sr.s = decide (b < a) := by rw [hsr, commit_s, alu_sub_s_of_overflow hover]
    have hzero' : t.sr.z = decide (b = a) := hzero.trans (decide_eq_decide.mpr eq_comm)
    obtain ⟨hge, hgt, hle⟩ := signed_conditions hsign hzero'
    exact ⟨hbrlt.trans (congrArg goTo hsign), hbrge.trans (congrArg goTo hge), hbrgt.trans (congrArg goTo hgt),
      hbrle.trans (congrArg goTo hle)⟩

end Sys2Proof.Machine
end

