-- ==== Sys2Proof/Proofs/Observation.lean ====
section
/-! SUPPORT. The observation port: the state can be read back from what it shows (spec/50_interfaces.md R197,
spec/40_control_fsm.md R108). -/

namespace Sys2Proof.Machine

/-! ## Reading the state back -/

/-- The flags of a packed status register. -/
def Status.ofPacked (w : BitVec 6) : Status :=
  ⟨w.getLsbD 5, w.getLsbD 4, w.getLsbD 3, w.getLsbD 2, w.getLsbD 1, w.getLsbD 0⟩

theorem ofPacked_packed (f : Status) : Status.ofPacked f.packed = f := by
  obtain ⟨i, s, n, z, v, c⟩ := f
  revert i s n z v c
  decide

/-- The phase of a code of the CPU state register. -/
def Phase.ofCode (c : BitVec 2) : Phase :=
  if c = 0#2 then .fetch else if c = 1#2 then .decode else if c = 2#2 then .execute else .invalid

theorem ofCode_code (p : Phase) : Phase.ofCode p.code = p := by
  cases p <;> rfl

/-- The state that a snapshot shows under the given parameters. -/
def Snapshot.toState (cfg : Config) (n : Snapshot) : State where
  cfg := cfg
  x := n.x
  pc := n.pc
  sr := Status.ofPacked n.sr
  mar := n.mar
  ir := n.ir
  phase := Phase.ofCode n.state
  opc := n.opc
  op1 := n.op1
  op2 := n.op2
  dm := n.dm
  stk := n.stk
  pm := n.pm

theorem toState_inspect (s : State) : (inspect s).toState s.cfg = s := by
  simp only [Snapshot.toState, inspect, ofPacked_packed, ofCode_code]

/-- Nothing of the state is left out. -/
theorem eq_of_inspect_eq {s s' : State} (hcfg : s.cfg = s'.cfg) (h : inspect s = inspect s') : s = s' :=
  calc s
    _ = (inspect s).toState s.cfg := (toState_inspect s).symm
    _ = (inspect s').toState s'.cfg := by rw [h, hcfg]
    _ = s' := toState_inspect s'

/-! ## The introspection of the Stack (20_memory.md R60) -/

theorem pointer_of_default {s : State} (h : s.cfg.spOf = []) : pointer s = s.stk.length := by
  rw [pointer, spOf, h]
  rfl

theorem pointer_congr {s s' : State} (hcfg : s'.cfg = s.cfg) (hlen : s'.stk.length = s.stk.length) :
    pointer s' = pointer s := by
  rw [pointer, pointer, hcfg, hlen]

theorem lastPushed_of_eq {s : State} {below : List Byte} {v : Byte} (h : s.stk = below ++ [v]) : lastPushed s = v := by
  rw [lastPushed, h, List.getLast?_concat, Option.getD_some]

theorem lastPushed_of_nil {s : State} {v : Byte} (h : s.stk = []) (hv : s.cfg.lastPushedEmpty = some v) :
    lastPushed s = v := by
  rw [lastPushed, h, hv]
  rfl

/-- Settles O58: the elements are shown as they are, the packed flags and the phase code are read back by their inverses,
and so is the whole state. -/
theorem snapshotShowsTheState : Obligations.SnapshotShowsTheState := by
  refine ⟨fun s => ?shown, fun _ _ => eq_of_inspect_eq⟩
  have hsr : Status.ofPacked (inspect s).sr = s.sr := ofPacked_packed s.sr
  exact ⟨rfl, rfl, rfl, rfl, rfl, rfl, rfl, rfl, rfl, rfl, congrArg Status.i hsr, congrArg Status.s hsr,
    congrArg Status.n hsr, congrArg Status.z hsr, congrArg Status.v hsr, congrArg Status.c hsr,
    congrArg Phase.code, congrArg Phase.code, congrArg Phase.code, congrArg Phase.code,
    pointer_of_default, fun _ => pointer_congr, fun _ _ => lastPushed_of_eq, fun _ => lastPushed_of_nil⟩

end Sys2Proof.Machine
end
